-- ==== Sys2Proof/Word.lean ====
section
/-! DEFINITION. The word types of the machine: the byte (00_scope.md R5) and the 9-bit program counter
(10_state.md R23). -/

namespace Sys2Proof

/-- A register value, a memory cell or an operand byte: an unsigned number 0 to 255 (00_scope.md R5). -/
abbrev Byte := BitVec 8

/-- A program-counter value: 9 bits (10_state.md R23), of which 0 to 256 are reachable. -/
abbrev PcWord := BitVec 9

/-- `zext_9` of 00_scope.md R5: a byte as a program-counter value. -/
abbrev zext9 (b : Byte) : PcWord := b.setWidth 9

end Sys2Proof
end

