-- ==== Sys2Proof/Syntax.lean ====
section
/-! DEFINITION. The instruction set: one constructor per row of spec/opcode_table.json (30_encoding.md R84).

Operands are the raw operand bytes of the encoding. A register operand is the whole byte (R82): a byte above 7 is
a legal encoding whose execution raises `InvalidRegister`, so it is not lost in decoding. -/

namespace Sys2Proof

/-- The 19 instructions (30_encoding.md R84), in the table's order. `a` is `opA`, `b` is `opB`, `v` the immediate. -/
inductive Instr where
  | hlt
  | ret
  | push (a : Byte)
  | pop (a : Byte)
  | prn (a : Byte)
  | call (a : Byte)
  | jmp (a : Byte)
  | jeq (a : Byte)
  | jne (a : Byte)
  | ldi (a : Byte) (v : Byte)
  | add (a : Byte) (b : Byte)
  | sub (a : Byte) (b : Byte)
  | mul (a : Byte) (b : Byte)
  | div (a : Byte) (b : Byte)
  | cmp (a : Byte) (b : Byte)
  | or (a : Byte) (b : Byte)
  | xor (a : Byte) (b : Byte)
  | shl (a : Byte) (b : Byte)
  | shr (a : Byte) (b : Byte)
  deriving DecidableEq, Repr

end Sys2Proof
end

