-- ==== Sys2Proof/Decode.lean ====
section
/-! DEFINITION. The decoder and the encoder (30_encoding.md R80 to R93).

The opcode byte values are the spec's table R84, which the spec marks as general knowledge (log entry 3). -/

namespace Sys2Proof

/-- The identity of an instruction, what `decode(op)` yields for a known opcode byte (30_encoding.md R86). -/
inductive Opcode where
  | hlt | ret | push | pop | prn | call | jmp | jeq | jne | ldi
  | add | sub | mul | div | cmp | or | xor | shl | shr
  deriving DecidableEq, Repr

/-- The four instruction formats (30_encoding.md R80). -/
inductive Format where
  /-- one byte, no operand -/
  | n
  /-- two bytes, one register -/
  | r
  /-- three bytes, two registers -/
  | rr
  /-- three bytes, a register and an immediate -/
  | ri
  deriving DecidableEq, Repr

/-- Why bytes are no instruction. -/
inductive DecodeReject where
  /-- the opcode byte is not one of the 19 (30_encoding.md R90) -/
  | unknownOpcode (op : Byte)
  /-- a list of bytes ends inside the instruction; the machine's own three-byte fetch never meets this -/
  | truncated (op : Byte)
  /-- a list of no bytes -/
  | noBytes
  deriving DecidableEq, Repr

/-- The opcode table, byte and identity (30_encoding.md R84). The decoder compares the whole byte. -/
def opcodeTable : List (Byte × Opcode) :=
  [(0x01#8, .hlt), (0x11#8, .ret),
   (0x45#8, .push), (0x46#8, .pop), (0x47#8, .prn), (0x50#8, .call),
   (0x54#8, .jmp), (0x55#8, .jeq), (0x56#8, .jne), (0x82#8, .ldi)] ++
  [(0xA0#8, .add), (0xA1#8, .sub), (0xA2#8, .mul), (0xA3#8, .div), (0xA7#8, .cmp),
   (0xAA#8, .or), (0xAB#8, .xor), (0xAC#8, .shl), (0xAD#8, .shr)]

/-- `decode(op)` of 30_encoding.md R86: total on bytes, `none` for *unknown*. -/
def decodeOpcode (op : Byte) : Option Opcode :=
  (opcodeTable.find? fun row => row.1 == op).map Prod.snd

/-- The format column of 30_encoding.md R84. -/
def Opcode.format : Opcode → Format
  | .hlt | .ret => .n
  | .push | .pop | .prn | .call | .jmp | .jeq | .jne => .r
  | .ldi => .ri
  | .add | .sub | .mul | .div | .cmp | .or | .xor | .shl | .shr => .rr

/-- The number of operand bytes of a format (30_encoding.md R80). -/
def Format.operandCount : Format → Nat
  | .n => 0
  | .r => 1
  | .rr => 2
  | .ri => 2

/-- The operand count a known opcode yields (30_encoding.md R86). -/
def Opcode.operandCount (o : Opcode) : Nat := o.format.operandCount

/-- The length column of 30_encoding.md R84. -/
def Opcode.length (o : Opcode) : Nat := 1 + o.operandCount

/-- The ALU flag a known opcode yields (30_encoding.md R86): the instructions of 40_alu.md. -/
def Opcode.isAlu : Opcode → Bool
  | .add | .sub | .mul | .div | .cmp | .or | .xor | .shl | .shr => true
  | .hlt | .ret | .push | .pop | .prn | .call | .jmp | .jeq | .jne | .ldi => false

/-- The instruction an identity makes of the two fetched operand bytes; bytes its format does not use are ignored
(30_encoding.md R88). -/
def Opcode.instr (o : Opcode) (opA opB : Byte) : Instr :=
  match o with
  | .hlt => .hlt
  | .ret => .ret
  | .push => .push opA
  | .pop => .pop opA
  | .prn => .prn opA
  | .call => .call opA
  | .jmp => .jmp opA
  | .jeq => .jeq opA
  | .jne => .jne opA
  | .ldi => .ldi opA opB
  | .add => .add opA opB
  | .sub => .sub opA opB
  | .mul => .mul opA opB
  | .div => .div opA opB
  | .cmp => .cmp opA opB
  | .or => .or opA opB
  | .xor => .xor opA opB
  | .shl => .shl opA opB
  | .shr => .shr opA opB

/-- The machine's decoder on the three fetched bytes (44_execution_cycle.md R162). -/
def decode (op opA opB : Byte) : Except DecodeReject Instr :=
  match decodeOpcode op with
  | none => .error (.unknownOpcode op)
  | some o => .ok (o.instr opA opB)

/-- The decoder on a list of bytes: the first instruction and the bytes after it (30_encoding.md R80, R87). -/
def decodeBytes : List Byte → Except DecodeReject (Instr × List Byte)
  | [] => .error .noBytes
  | op :: rest =>
    match decodeOpcode op with
    | none => .error (.unknownOpcode op)
    | some o =>
      if rest.length < o.operandCount then .error (.truncated op)
      else .ok (o.instr (rest.getD 0 0#8) (rest.getD 1 0#8), rest.drop o.operandCount)

/-- The `hex` column of 30_encoding.md R84, by identity; the encoder reads it. -/
def Opcode.byte : Opcode → Byte
  | .hlt => 0x01#8
  | .ret => 0x11#8
  | .push => 0x45#8
  | .pop => 0x46#8
  | .prn => 0x47#8
  | .call => 0x50#8
  | .jmp => 0x54#8
  | .jeq => 0x55#8
  | .jne => 0x56#8
  | .ldi => 0x82#8
  | .add => 0xA0#8
  | .sub => 0xA1#8
  | .mul => 0xA2#8
  | .div => 0xA3#8
  | .cmp => 0xA7#8
  | .or => 0xAA#8
  | .xor => 0xAB#8
  | .shl => 0xAC#8
  | .shr => 0xAD#8

/-- The encoder: the 1 to 3 bytes of an instruction, opcode first (the syntax table of 30_encoding.md R94). -/
def encode : Instr → List Byte
  | .hlt => [Opcode.hlt.byte]
  | .ret => [Opcode.ret.byte]
  | .push a => [Opcode.push.byte, a]
  | .pop a => [Opcode.pop.byte, a]
  | .prn a => [Opcode.prn.byte, a]
  | .call a => [Opcode.call.byte, a]
  | .jmp a => [Opcode.jmp.byte, a]
  | .jeq a => [Opcode.jeq.byte, a]
  | .jne a => [Opcode.jne.byte, a]
  | .ldi a v => [Opcode.ldi.byte, a, v]
  | .add a b => [Opcode.add.byte, a, b]
  | .sub a b => [Opcode.sub.byte, a, b]
  | .mul a b => [Opcode.mul.byte, a, b]
  | .div a b => [Opcode.div.byte, a, b]
  | .cmp a b => [Opcode.cmp.byte, a, b]
  | .or a b => [Opcode.or.byte, a, b]
  | .xor a b => [Opcode.xor.byte, a, b]
  | .shl a b => [Opcode.shl.byte, a, b]
  | .shr a b => [Opcode.shr.byte, a, b]

/-- Byte `k` of an instruction given as a number whose bit 0 is bit 0 of the byte at `pc`. -/
def tableByte (w k : Nat) : Byte := BitVec.ofNat 8 (w / 2 ^ (8 * k))

/-- What the decoder reads from a table row's word of `nbits` bits; every bit above `nbits` is 0. -/
def decodeTableWord (nbits w : Nat) : Option Instr :=
  (decode (tableByte (w % 2 ^ nbits) 0) (tableByte (w % 2 ^ nbits) 1) (tableByte (w % 2 ^ nbits) 2)).toOption

end Sys2Proof
end

