-- ==== Sys2Proof/Config.lean ====
section
/-! DEFINITION. The parameters of the hardware (00_scope.md R4). The machine is deterministic and the spec decides
every open point (00_scope.md R13 item 6), so there is no free value here. -/

namespace Sys2Proof.Config

/-- `MEM_SIZE`: memory has cells 0 to 255. -/
abbrev memSize : Nat := 256

/-- `NREG`: registers R0 to R7. -/
abbrev nreg : Nat := 8

/-- `SP`: the index of the stack-pointer register. -/
abbrev sp : Fin 8 := 7

/-- `SP_RESET`: 0xF4 = 244. -/
abbrev spReset : Byte := 0xF4#8

/-- `PC_RESET`: execution starts at address 0. -/
abbrev pcReset : PcWord := 0#9

/-- What a cell holds that nothing has written since reset (10_state.md R32, 20_memory.md R50). -/
abbrev unwrittenCell : Byte := 0x00#8

end Sys2Proof.Config
end

