-- ==== Sys2Proof/Machine/State.lean ====
section
/-! DEFINITION. The state of the machine: the seven items of 10_state.md R20, as plain data, and their reset
values (R32). -/

namespace Sys2Proof.Machine

/-- Memory as (address, byte) pairs in one canonical form (`Memory.wf` in Machine/Ops.lean): addresses rising, all
in 0 to 255, no entry equal to what an unlisted address reads as (10_state.md R30). -/
abbrev Memory := List Host.Cell

/-- The flag register's four values (10_state.md R25); the 3-bit view is `Flag.bits` in Machine/Flags.lean. -/
inductive Flag where
  /-- no CMP since reset -/
  | unset
  /-- the last CMP found its operands equal -/
  | eq
  /-- the first operand of the last CMP was less than the second -/
  | lt
  /-- the first operand of the last CMP was greater than the second -/
  | gt
  deriving DecidableEq, Repr

/-- The run state (10_state.md R27). -/
inductive RunState where
  | running
  | halted
  deriving DecidableEq, Repr

/-- The error cause (10_state.md R28, 60_exceptions.md R180). These are the machine's own faults: raising one is a
NEXT state (`takeFault` in Machine/Ops.lean), not an `Outcome.fault`. -/
inductive ErrorCause where
  /-- code 0: no fault -/
  | none
  /-- code 1: a memory address, or the stack pointer after its update, outside 0 to 255 -/
  | outOfBounds
  /-- code 2: a register operand byte above 7 -/
  | invalidRegister
  /-- code 3: an opcode byte that is not one of the 19 -/
  | unsupportedInstruction
  /-- code 4: named by the source, raised by nothing (60_exceptions.md R184) -/
  | unsupportedALUOperation
  /-- code 5: DIV with a zero divisor -/
  | divisionByZero
  deriving DecidableEq, Repr

/-- The whole state of the machine (10_state.md R20). -/
structure State where
  /-- memory, 256 cells of 8 bits (R30) -/
  mem : Memory
  /-- `x[0]` to `x[7]` (R21); `x[7]` is the stack pointer (R22) -/
  regs : Vector Byte 8
  /-- the program counter (R23) -/
  pc : PcWord
  /-- the flag register (R25) -/
  fl : Flag
  /-- the run state (R27) -/
  run : RunState
  /-- the error cause (R28) -/
  err : ErrorCause
  /-- the console log, oldest byte first (R29) -/
  out : List Byte
  deriving DecidableEq, Repr

/-- Where the MODEL stops, as opposed to the machine's own faults, which are next states. -/
inductive Fault where
  /-- Raised by `step` alone, in a state with `run = Halted`: such a state "has no step" (44_execution_cycle.md
  R160, R165). Safe: nothing is claimed of a step the machine does not take. -/
  | haltedHasNoStep
  deriving DecidableEq, Repr

/-- Instructions without a meaning. No arm of `exec` uses it: all 19 instructions have their meaning. -/
inductive Refusal where
  /-- Raised by an arm of `exec` for an instruction not modelled yet, by its mnemonic in spec/opcode_table.json.
  Safe: nothing is claimed of what such an instruction does. -/
  | notModelled (mnemonic : String)
  deriving DecidableEq, Repr

/-- The state after reset (10_state.md R32, 70_reset_and_hazards.md R210): memory zero-filled, registers zero but
R7 = 0xF4, `pc` = 0, `fl` unset, running, no error, nothing emitted. -/
def State.reset : State where
  mem := []
  regs := #v[0x00#8, 0x00#8, 0x00#8, 0x00#8, 0x00#8, 0x00#8, 0x00#8, Config.spReset]
  pc := Config.pcReset
  fl := .unset
  run := .running
  err := .none
  out := []

end Sys2Proof.Machine
end

