-- ==== Sys2Proof/Machine/Ops.lean ====
section
/-! DEFINITION. The named operations every instruction is built from: registers, memory, the program counter, the
stack pointer, the console log, and taking a fault. -/

namespace Sys2Proof.Machine

/-! ## Memory (20_memory.md R50) -/

/-- The byte of cell `a`; an unlisted cell reads as `Config.unwrittenCell`. -/
def Memory.peek : Memory → Nat → Byte
  | [], _ => Config.unwrittenCell
  | c :: m, a => if c.1 = a then c.2 else Memory.peek m a

/-- Puts a cell in its place by address. -/
def Memory.insertCell (c : Host.Cell) : Memory → Memory
  | [] => [c]
  | d :: m => if c.1 < d.1 then c :: d :: m else d :: Memory.insertCell c m

/-- Sets cell `a` to `v`, keeping the canonical form: writing what an unlisted cell reads as removes the entry. -/
def Memory.poke (m : Memory) (a : Nat) (v : Byte) : Memory :=
  if v = Config.unwrittenCell then m.filter (fun c => c.1 != a)
  else Memory.insertCell (a, v) (m.filter (fun c => c.1 != a))

/-- The canonical form: addresses strictly rising and in range, no entry that reads as unlisted. -/
abbrev Memory.wf (m : Memory) : Prop :=
  m.Pairwise (fun c d => c.1 < d.1) ∧ ∀ c ∈ m, c.1 < Config.memSize ∧ c.2 ≠ Config.unwrittenCell

/-- The bounds check of 20_memory.md R50: the cell an address names, made on the unbounded integer and never on a
wrapped address. -/
def cellIndex : Int → Option Nat
  | .ofNat n => if n < Config.memSize then some n else none
  | .negSucc _ => none

/-- Sets one cell and nothing else. -/
def State.setCell (s : State) (n : Nat) (v : Byte) : State := { s with mem := s.mem.poke n v }

/-- `MemRead(addr, 1)` (00_scope.md R7, 20_memory.md R50). -/
def State.memRead (s : State) (addr : Int) : Except ErrorCause Byte :=
  match cellIndex addr with
  | none => .error .outOfBounds
  | some n => .ok (s.mem.peek n)

/-- `MemWrite(addr, 1, v)` (00_scope.md R7, 20_memory.md R50). -/
def State.memWrite (s : State) (addr : Int) (v : Byte) : Except ErrorCause State :=
  match cellIndex addr with
  | none => .error .outOfBounds
  | some n => .ok (s.setCell n v)

/-! ## Registers and the flag register (10_state.md R21, R26) -/

/-- `x[r]`. -/
def State.reg (s : State) (r : Fin 8) : Byte := s.regs[r]

/-- `x[r] <- v`. No register is hard-wired. -/
def State.setReg (s : State) (r : Fin 8) (v : Byte) : State := { s with regs := s.regs.set r v }

/-- `chkreg` (00_scope.md R8): the register an operand byte names, `InvalidRegister` above 7. -/
def chkreg (i : Byte) : Except ErrorCause (Fin 8) :=
  if h : i.toNat < 8 then .ok ⟨i.toNat, h⟩ else .error .invalidRegister

/-- `fl <- f` (10_state.md R26). -/
def State.setFlag (s : State) (f : Flag) : State := { s with fl := f }

/-! ## Stack-pointer arithmetic (41_stack_call.md R130(b)): on integers and checked, never wrapping. -/

/-- Register 7 minus 1, `OutOfBounds` at 0. -/
def spDec (v : Byte) : Except ErrorCause Byte :=
  if v = 0x00#8 then .error .outOfBounds else .ok (v - 1#8)

/-- A stack-pointer value plus 1, `OutOfBounds` at 255. -/
def spInc (v : Byte) : Except ErrorCause Byte :=
  if v = 0xFF#8 then .error .outOfBounds else .ok (v + 1#8)

/-! ## Program counter (44_execution_cycle.md R164) -/

/-- `pc <- pc + n`, a 9-bit addition; it cannot overflow after a fetch, which needs `pc <= 253` (log entry 4). -/
def State.advancePc (s : State) (n : PcWord) : State := { s with pc := s.pc + n }

/-- `pc <- zext_9(b)`. -/
def State.jumpTo (s : State) (b : Byte) : State := { s with pc := zext9 b }

/-! ## Console (00_scope.md R10) -/

/-- `Emit(v)`: appends to the console log. -/
def State.emit (s : State) (v : Byte) : State := { s with out := s.out ++ [v] }

/-! ## Faults (60_exceptions.md R186) -/

/-- Taking a fault, the entry 60_exceptions.md R186 describes: exactly two writes, `run <- Halted` and
`err <- cause`. Nothing is saved anywhere else, nothing is pushed and control goes nowhere; `pc` keeps the address of
the faulting instruction (R198). There is no return from a fault to model beside it (R188): only reset leaves it. -/
def takeFault (c : ErrorCause) (s : State) : State := { s with run := .halted, err := c }

/-- Ends an instruction: commits its result, or takes the fault it raised in the state it started from, so that a
faulting instruction has no other effect (00_scope.md R9, R11). -/
def finish (s : State) : Except ErrorCause State → Host.Outcome State Fault Refusal
  | .ok t => .next t
  | .error c => .next (takeFault c s)

/-- The numeric code of a cause (10_state.md R28). -/
def ErrorCause.code : ErrorCause → Nat
  | .none => 0
  | .outOfBounds => 1
  | .invalidRegister => 2
  | .unsupportedInstruction => 3
  | .unsupportedALUOperation => 4
  | .divisionByZero => 5

end Sys2Proof.Machine
end

