-- ==== Sys2Proof/Machine/Flags.lean ====
section
/-! DEFINITION. The flag register (10_state.md R25, R26): CMP's comparison, the jumps' test, and the 3-bit view. -/

namespace Sys2Proof.Machine

/-- What CMP writes: the order of two bytes as unsigned numbers (40_alu.md R119). -/
def compareFlag (va vb : Byte) : Flag :=
  if va = vb then .eq else if va.toNat < vb.toNat then .lt else .gt

/-- The one test an instruction makes of `fl`: whether it is `EQ` (10_state.md R26, 42_jump.md R142, R143). -/
def Flag.isEq (f : Flag) : Bool := f == .eq

/-- The register as three bits, `L` bit 2, `G` bit 1, `E` bit 0 (10_state.md R25; log entry 5). No instruction
exposes it. -/
def Flag.bits : Flag → BitVec 3
  | .unset => 0b000#3
  | .eq => 0b001#3
  | .gt => 0b010#3
  | .lt => 0b100#3

end Sys2Proof.Machine
end

