-- ==== Sys2Proof/Machine/Operands.lean ====
section
/-! DEFINITION. The operand forms (30_encoding.md R80, R82): every register operand byte is checked, in encoding
order, before the instruction's own rule runs (00_scope.md R8, 60_exceptions.md R187 item 3). -/

namespace Sys2Proof.Machine

/-- Formats `R` and `RI`: one register operand. -/
def oneReg (opA : Byte) (body : Fin 8 → Except ErrorCause State) : Except ErrorCause State :=
  match chkreg opA with
  | .error c => .error c
  | .ok a => body a

/-- Format `RR`: two register operands. -/
def twoRegs (opA opB : Byte) (body : Fin 8 → Fin 8 → Except ErrorCause State) : Except ErrorCause State :=
  match chkreg opA with
  | .error c => .error c
  | .ok a =>
    match chkreg opB with
    | .error c => .error c
    | .ok b => body a b

end Sys2Proof.Machine
end

