-- ==== Sys2Proof/Machine/Alu.lean ====
section
/-! DEFINITION. The ALU instructions (40_alu.md): ADD, SUB, MUL, DIV, OR, XOR, SHL, SHR, CMP. All arithmetic is on
unsigned 8-bit values and every result is reduced to 8 bits (R120); no flag but CMP's. -/

namespace Sys2Proof.Machine

/-! ## The combinational functions -/

/-- 40_alu.md R111. -/
def aluAdd (va vb : Byte) : Byte := BitVec.ofNat 8 (va.toNat + vb.toNat)

/-- 40_alu.md R112: the difference modulo 256. -/
def aluSub (va vb : Byte) : Byte := BitVec.ofInt 8 ((va.toNat : Int) - vb.toNat)

/-- 40_alu.md R113: the low 8 bits of the product. -/
def aluMul (va vb : Byte) : Byte := BitVec.ofNat 8 (va.toNat * vb.toNat)

/-- 40_alu.md R114: the floor of the unsigned quotient, `DivisionByZero` when the divisor is 0. -/
def aluDiv (va vb : Byte) : Except ErrorCause Byte :=
  if vb = 0x00#8 then .error .divisionByZero else .ok (BitVec.ofNat 8 (va.toNat / vb.toNat))

/-- 40_alu.md R115. -/
def aluOr (va vb : Byte) : Byte := va ||| vb

/-- 40_alu.md R116. -/
def aluXor (va vb : Byte) : Byte := va ^^^ vb

/-- The shift distance: the low three bits of the amount (40_alu.md R117, R118). -/
def shiftAmount (vb : Byte) : Nat := vb.toNat % 8

/-- 40_alu.md R117. -/
def aluShl (va vb : Byte) : Byte := va <<< shiftAmount vb

/-- 40_alu.md R118: logical. -/
def aluShr (va vb : Byte) : Byte := va >>> shiftAmount vb

/-! ## The common rule -/

/-- The common pseudocode of 40_alu.md R110: check both indices, read both registers, write the result to the first,
advance by 3. -/
def aluBinary (f : Byte → Byte → Except ErrorCause Byte) (opA opB : Byte) (s : State) :
    Host.Outcome State Fault Refusal :=
  finish s (twoRegs opA opB fun a b =>
    match f (s.reg a) (s.reg b) with
    | .error c => .error c
    | .ok r => .ok ((s.setReg a r).advancePc 3))

/-! ## The instructions -/

/-- ADD (40_alu.md R111). -/
def execAdd (opA opB : Byte) (s : State) : Host.Outcome State Fault Refusal :=
  aluBinary (fun va vb => .ok (aluAdd va vb)) opA opB s

/-- SUB (40_alu.md R112). -/
def execSub (opA opB : Byte) (s : State) : Host.Outcome State Fault Refusal :=
  aluBinary (fun va vb => .ok (aluSub va vb)) opA opB s

/-- MUL (40_alu.md R113). -/
def execMul (opA opB : Byte) (s : State) : Host.Outcome State Fault Refusal :=
  aluBinary (fun va vb => .ok (aluMul va vb)) opA opB s

/-- DIV (40_alu.md R114). -/
def execDiv (opA opB : Byte) (s : State) : Host.Outcome State Fault Refusal :=
  aluBinary aluDiv opA opB s

/-- OR (40_alu.md R115). -/
def execOr (opA opB : Byte) (s : State) : Host.Outcome State Fault Refusal :=
  aluBinary (fun va vb => .ok (aluOr va vb)) opA opB s

/-- XOR (40_alu.md R116). -/
def execXor (opA opB : Byte) (s : State) : Host.Outcome State Fault Refusal :=
  aluBinary (fun va vb => .ok (aluXor va vb)) opA opB s

/-- SHL (40_alu.md R117). -/
def execShl (opA opB : Byte) (s : State) : Host.Outcome State Fault Refusal :=
  aluBinary (fun va vb => .ok (aluShl va vb)) opA opB s

/-- SHR (40_alu.md R118). -/
def execShr (opA opB : Byte) (s : State) : Host.Outcome State Fault Refusal :=
  aluBinary (fun va vb => .ok (aluShr va vb)) opA opB s

/-- CMP (40_alu.md R119): writes `fl` whole and no register. -/
def execCmp (opA opB : Byte) (s : State) : Host.Outcome State Fault Refusal :=
  finish s (twoRegs opA opB fun a b =>
    .ok ((s.setFlag (compareFlag (s.reg a) (s.reg b))).advancePc 3))

end Sys2Proof.Machine
end

