-- ==== Sys2Proof/Machine/Jump.lean ====
section
/-! DEFINITION. The jumps (42_jump.md): JMP, JEQ, JNE. The register index is checked before the condition is looked
at (R140). -/

namespace Sys2Proof.Machine

/-- The common rule of the jumps (42_jump.md R140): to the register's byte when taken, else past the two bytes. -/
def jumpIf (taken : Bool) (opA : Byte) (s : State) : Host.Outcome State Fault Refusal :=
  finish s (oneReg opA fun a =>
    .ok (if taken then s.jumpTo (s.reg a) else s.advancePc 2))

/-- JMP (42_jump.md R141). -/
def execJmp (opA : Byte) (s : State) : Host.Outcome State Fault Refusal := jumpIf true opA s

/-- JEQ (42_jump.md R142): not taken while `fl` is `UNSET`. -/
def execJeq (opA : Byte) (s : State) : Host.Outcome State Fault Refusal := jumpIf s.fl.isEq opA s

/-- JNE (42_jump.md R143): taken while `fl` is `UNSET`. -/
def execJne (opA : Byte) (s : State) : Host.Outcome State Fault Refusal := jumpIf (!s.fl.isEq) opA s

end Sys2Proof.Machine
end

