-- ==== Sys2Proof/Machine/LdiPrnHlt.lean ====
section
/-! DEFINITION. Load-immediate, print and halt (43_ldi_prn_hlt.md): LDI, PRN, HLT. -/

namespace Sys2Proof.Machine

/-- LDI (43_ldi_prn_hlt.md R150): the immediate byte as it stands (30_encoding.md R83). -/
def execLdi (opA v : Byte) (s : State) : Host.Outcome State Fault Refusal :=
  finish s (oneReg opA fun a => .ok ((s.setReg a v).advancePc 3))

/-- PRN (43_ldi_prn_hlt.md R151): emits the register's byte. -/
def execPrn (opA : Byte) (s : State) : Host.Outcome State Fault Refusal :=
  finish s (oneReg opA fun a => .ok ((s.emit (s.reg a)).advancePc 2))

/-- HLT (43_ldi_prn_hlt.md R152): halts without an error and leaves `pc` at the HLT. -/
def execHlt (s : State) : Host.Outcome State Fault Refusal :=
  finish s (.ok { s with run := .halted, err := .none })

end Sys2Proof.Machine
end

