-- ==== Sys2Proof/Machine/Stack.lean ====
section
/-! DEFINITION. The stack and subroutine instructions (41_stack_call.md): PUSH, POP, CALL, RET. The values follow the
source's order of sub-steps where the operand is register 7 itself (R130(c)); a fault leaves everything as it was
(R130(d)). -/

namespace Sys2Proof.Machine

/-- Pre-decrements register 7 and hands on the state with it and the new stack pointer; raises `OutOfBounds` at 0
(41_stack_call.md R130). -/
def withPushedSp (s : State) (body : State → Byte → Except ErrorCause State) : Except ErrorCause State :=
  match spDec (s.reg Config.sp) with
  | .error c => .error c
  | .ok sp1 => body (s.setReg Config.sp sp1) sp1

/-- PUSH (41_stack_call.md R131): the operand register is read after the decrement. -/
def execPush (opA : Byte) (s : State) : Host.Outcome State Fault Refusal :=
  finish s (oneReg opA fun a => withPushedSp s fun s1 sp1 =>
    match s1.memWrite sp1.toNat (s1.reg a) with
    | .error c => .error c
    | .ok t => .ok (t.advancePc 2))

/-- POP (41_stack_call.md R132): the operand register is written first and register 7, incremented, after it. -/
def execPop (opA : Byte) (s : State) : Host.Outcome State Fault Refusal :=
  finish s (oneReg opA fun a =>
    match s.memRead (s.reg Config.sp).toNat with
    | .error c => .error c
    | .ok v =>
      match spInc ((s.setReg a v).reg Config.sp) with
      | .error c => .error c
      | .ok sp1 => .ok (((s.setReg a v).setReg Config.sp sp1).advancePc 2))

/-- The byte CALL pushes: `pc + 2`, which fits a byte because the fetch has ensured `pc <= 253` (41_stack_call.md
R133; log entry 4). -/
def returnAddress (s : State) : Byte := (s.pc + 2).setWidth 8

/-- CALL (41_stack_call.md R133): push first, then read the target register. -/
def execCall (opA : Byte) (s : State) : Host.Outcome State Fault Refusal :=
  finish s (oneReg opA fun a => withPushedSp s fun s1 sp1 =>
    match s1.memWrite sp1.toNat (returnAddress s) with
    | .error c => .error c
    | .ok t => .ok (t.jumpTo (s1.reg a)))

/-- RET (41_stack_call.md R134). -/
def execRet (s : State) : Host.Outcome State Fault Refusal :=
  finish s (
    match s.memRead (s.reg Config.sp).toNat with
    | .error c => .error c
    | .ok v =>
      match spInc (s.reg Config.sp) with
      | .error c => .error c
      | .ok sp1 => .ok ((s.setReg Config.sp sp1).jumpTo v))

end Sys2Proof.Machine
end

