-- ==== Sys2Proof/Machine/Fetch.lean ====
section
/-! DEFINITION. The fetch and decode stages of a step (44_execution_cycle.md R161, R162). -/

namespace Sys2Proof.Machine

/-- Fetch: the three bytes at `pc`, `pc + 1`, `pc + 2`, always all three, through the memory contract and without
wrap (44_execution_cycle.md R161). -/
def fetchBytes (s : State) : Except ErrorCause (Byte × Byte × Byte) :=
  match s.memRead s.pc.toNat with
  | .error c => .error c
  | .ok op =>
    match s.memRead ((s.pc.toNat : Int) + 1) with
    | .error c => .error c
    | .ok opA =>
      match s.memRead ((s.pc.toNat : Int) + 2) with
      | .error c => .error c
      | .ok opB => .ok (op, opA, opB)

/-- Fetch, then decode: the instruction at `pc`, or the fault of the first stage that fails (60_exceptions.md R187
items 1 and 2); an unknown opcode byte is `UnsupportedInstruction` (30_encoding.md R90). -/
def fetchInstr (s : State) : Except ErrorCause Instr :=
  match fetchBytes s with
  | .error c => .error c
  | .ok (op, opA, opB) =>
    match decode op opA opB with
    | .error _ => .error .unsupportedInstruction
    | .ok i => .ok i

/-- Stores the three bytes of a table word at `pc`, `pc + 1`, `pc + 2` (cells that exist). -/
def storeTableWord (m : Memory) (pc : Nat) (w : Nat) : Memory :=
  [0, 1, 2].foldl (fun m k => if pc + k < Config.memSize then m.poke (pc + k) (tableByte w k) else m) m

end Sys2Proof.Machine
end

