-- ==== Sys2Proof/Machine/Step.lean ====
section
/-! DEFINITION. One step of the machine (44_execution_cycle.md R160): fetch, decode, execute while `Running`. -/

namespace Sys2Proof.Machine

/-- The step function (44_execution_cycle.md R160). A halted state has no step (R165; log entry 1); a fault of fetch
or decode is taken in the state the step started from (60_exceptions.md R186). -/
def step (s : State) : Host.Outcome State Fault Refusal :=
  match s.run with
  | .halted => .fault .haltedHasNoStep
  | .running =>
    match fetchInstr s with
    | .error c => finish s (.error c)
    | .ok i => exec i s

/-- `s` with a table row's word where the next step fetches: its three bytes at `pc`, and nothing else changed
(log entry 17). -/
def State.withFetchWord (s : State) (nbits w : Nat) : State :=
  { s with mem := storeTableWord s.mem s.pc.toNat (w % 2 ^ nbits) }

end Sys2Proof.Machine
end

