-- ==== Sys2Proof/Machine/Console.lean ====
section
/-! DEFINITION. The text the console shows for the log (10_state.md R29, 44_execution_cycle.md R168). -/

namespace Sys2Proof.Machine

/-- A decimal digit as a character. -/
def digitChar (d : Nat) : Char := Char.ofNat (48 + d)

/-- The decimal numeral of a byte: digits only, no leading zeros, `0` for zero (10_state.md R29). -/
def byteNumeral (v : Byte) : List Char :=
  if v.toNat < 10 then [digitChar v.toNat]
  else if v.toNat < 100 then [digitChar (v.toNat / 10), digitChar (v.toNat % 10)]
  else [digitChar (v.toNat / 100), digitChar (v.toNat / 10 % 10), digitChar (v.toNat % 10)]

/-- The console's text: for each byte its numeral and one newline (0x0A), oldest first (10_state.md R29). -/
def consoleText (out : List Byte) : List Char := out.flatMap fun v => byteNumeral v ++ ['\n']

end Sys2Proof.Machine
end

