-- ==== Sys2Proof/Machine/Launch.lean ====
section
/-! DEFINITION. What the host does before the first step: reset and program load (44_execution_cycle.md R166, R167,
R170; 70_reset_and_hazards.md R211). -/

namespace Sys2Proof.Machine

/-- A reset, applied in any state: every item goes to its reset value, memory too (44_execution_cycle.md R166). -/
def hostReset (_s : State) : State := State.reset

/-- Writes bytes to ascending cells from `addr`, all through `MemWrite` (44_execution_cycle.md R167). -/
def loadFrom (s : State) (addr : Nat) : List Byte → Except ErrorCause State
  | [] => .ok s
  | v :: vs =>
    match s.memWrite addr v with
    | .error c => .error c
    | .ok t => loadFrom t (addr + 1) vs

/-- Program load: cells 0 to k-1. All or nothing: `none` is `ProgramLoadFailure`, no run starts
(60_exceptions.md R189); a program of more than 256 bytes cannot be loaded (44_execution_cycle.md R167). -/
def loadProgram (s : State) (program : List Byte) : Option State := (loadFrom s 0 program).toOption

/-- The launch state of a program (70_reset_and_hazards.md R211): reset, then load. -/
def launch (program : List Byte) : Option State := loadProgram State.reset program

end Sys2Proof.Machine
end

