-- ==== Sys2Proof/Machine/ProgramText.lean ====
section
/-! DEFINITION. The program file format (30_encoding.md R96): the notation in which the loader's input is written. -/

namespace Sys2Proof.Machine

/-- A blank inside a line. -/
def isBlank (c : Char) : Bool := c == ' ' || c == '\t' || c == '\r'

/-- A text without the blanks around it. -/
def trimBlanks (cs : List Char) : List Char := ((cs.dropWhile isBlank).reverse.dropWhile isBlank).reverse

/-- The part of a line before its `#`-introduced comment, without blanks around it. -/
def stripLine (line : List Char) : List Char := trimBlanks (line.takeWhile (· != '#'))

/-- A binary digit's value. -/
def binaryDigit (c : Char) : Option Nat :=
  if c == '0' then some 0 else if c == '1' then some 1 else none

/-- Digits most significant first, as a number. -/
def binaryNumeral (acc : Nat) : List Char → Option Nat
  | [] => some acc
  | c :: cs =>
    match binaryDigit c with
    | none => none
    | some d => binaryNumeral (2 * acc + d) cs

/-- An 8-character binary literal, one byte. -/
def binaryLiteral (cs : List Char) : Option Byte :=
  if cs.length = 8 then (binaryNumeral 0 cs).map (BitVec.ofNat 8) else none

/-- The bytes of a program's lines, in order; blank and comment-only lines are skipped. `none` where a line is
neither a literal, a comment nor blank, which the spec leaves open (log entry 18). -/
def parseProgram : List (List Char) → Option (List Byte)
  | [] => some []
  | line :: rest =>
    if (stripLine line).isEmpty then parseProgram rest
    else
      match binaryLiteral (stripLine line) with
      | none => none
      | some b => (parseProgram rest).map (b :: ·)

end Sys2Proof.Machine
end

