-- ==== Sys2Proof/Machine/Assembly.lean ====
section
/-! DEFINITION. The assembler notation of the spec (30_encoding.md R94), from text to bytes and back to text. It is
toolchain notation: no step uses it. -/

namespace Sys2Proof.Machine

/-! ## Writing -/

/-- The mnemonic in capitals (30_encoding.md R84, R94). -/
def mnemonic : Opcode → List Char
  | .hlt => ['H', 'L', 'T']
  | .ret => ['R', 'E', 'T']
  | .push => ['P', 'U', 'S', 'H']
  | .pop => ['P', 'O', 'P']
  | .prn => ['P', 'R', 'N']
  | .call => ['C', 'A', 'L', 'L']
  | .jmp => ['J', 'M', 'P']
  | .jeq => ['J', 'E', 'Q']
  | .jne => ['J', 'N', 'E']
  | .ldi => ['L', 'D', 'I']
  | .add => ['A', 'D', 'D']
  | .sub => ['S', 'U', 'B']
  | .mul => ['M', 'U', 'L']
  | .div => ['D', 'I', 'V']
  | .cmp => ['C', 'M', 'P']
  | .or => ['O', 'R']
  | .xor => ['X', 'O', 'R']
  | .shl => ['S', 'H', 'L']
  | .shr => ['S', 'H', 'R']

/-- A register operand: `R0` to `R7`, and `R8` and on for a byte that names no register (00_scope.md R6). -/
def registerText (b : Byte) : List Char := 'R' :: byteNumeral b

/-- The three shapes of an instruction's text. -/
def oneWord (o : Opcode) : List Char := mnemonic o
def oneOperand (o : Opcode) (a : List Char) : List Char := mnemonic o ++ ' ' :: a
def twoOperands (o : Opcode) (a b : List Char) : List Char := mnemonic o ++ ' ' :: (a ++ ',' :: b)

/-- The syntax column of 30_encoding.md R94, the immediate in decimal. -/
def instrText : Instr → List Char
  | .hlt => oneWord .hlt
  | .ret => oneWord .ret
  | .push a => oneOperand .push (registerText a)
  | .pop a => oneOperand .pop (registerText a)
  | .prn a => oneOperand .prn (registerText a)
  | .call a => oneOperand .call (registerText a)
  | .jmp a => oneOperand .jmp (registerText a)
  | .jeq a => oneOperand .jeq (registerText a)
  | .jne a => oneOperand .jne (registerText a)
  | .ldi a v => twoOperands .ldi (registerText a) (byteNumeral v)
  | .add a b => twoOperands .add (registerText a) (registerText b)
  | .sub a b => twoOperands .sub (registerText a) (registerText b)
  | .mul a b => twoOperands .mul (registerText a) (registerText b)
  | .div a b => twoOperands .div (registerText a) (registerText b)
  | .cmp a b => twoOperands .cmp (registerText a) (registerText b)
  | .or a b => twoOperands .or (registerText a) (registerText b)
  | .xor a b => twoOperands .xor (registerText a) (registerText b)
  | .shl a b => twoOperands .shl (registerText a) (registerText b)
  | .shr a b => twoOperands .shr (registerText a) (registerText b)

/-! ## Reading -/

/-- The pieces of a text between the separators. -/
def piecesAt (isSeparator : Char → Bool) : List Char → List (List Char)
  | [] => [[]]
  | c :: cs =>
    if isSeparator c then [] :: piecesAt isSeparator cs
    else
      match piecesAt isSeparator cs with
      | [] => [[c]]
      | w :: ws => (c :: w) :: ws

/-- A digit's value, decimal or hexadecimal; that hexadecimal is read in either case is a DESIGN CHOICE (log entry
21). -/
def digitValue (c : Char) : Nat :=
  if '0' ≤ c ∧ c ≤ '9' then c.toNat - 48
  else if 'a' ≤ c ∧ c ≤ 'f' then c.toNat - 87
  else if 'A' ≤ c ∧ c ≤ 'F' then c.toNat - 55
  else 16

/-- A numeral of at least one digit, every digit below the base. -/
def numeralValue (base : Nat) (ds : List Char) : Option Nat :=
  if ds.isEmpty || ds.any (fun c => base ≤ digitValue c) then none
  else some (ds.foldl (fun n c => base * n + digitValue c) 0)

/-- A number 0 to 255 as a byte. -/
def byteOfNat (n : Nat) : Option Byte := if n < 256 then some (BitVec.ofNat 8 n) else none

/-- A register operand: `R` and a decimal numeral 0 to 255 (00_scope.md R6 writes `R8` and on for a bad operand). -/
def readRegister : List Char → Option Byte
  | 'R' :: ds => (numeralValue 10 ds).bind byteOfNat
  | _ => none

/-- An immediate: a decimal or `0x` numeral 0 to 255, or a label's address (30_encoding.md R94). DESIGN CHOICE (log
entry 21): of two labels of one name the first counts, and a label spelled like a numeral hides the numeral. -/
def readImmediate (labels : List (List Char × Nat)) (cs : List Char) : Option Byte :=
  match labels.find? (fun l => l.1 == cs) with
  | some l => byteOfNat l.2
  | none =>
    match cs with
    | '0' :: 'x' :: ds => (numeralValue 16 ds).bind byteOfNat
    | ds => (numeralValue 10 ds).bind byteOfNat

/-- One instruction as text: its label if it has one, its opcode and its operands' texts. -/
structure AssemblyLine where
  label : Option (List Char)
  opcode : Opcode
  operands : List (List Char)
  deriving DecidableEq, Repr

/-- Mnemonic and operands: the first word, and the rest split at commas. -/
def readInstruction (label : Option (List Char)) (cs : List Char) : Option AssemblyLine :=
  match opcodeTable.find? (fun row => mnemonic row.2 == cs.takeWhile (! isBlank ·)) with
  | none => none
  | some row =>
    let rest := trimBlanks (cs.dropWhile (! isBlank ·))
    some { label := label, opcode := row.2,
           operands := if rest.isEmpty then [] else (piecesAt (· == ',') rest).map trimBlanks }

/-- One piece between `;` or line ends, with an optional `name:` before the instruction. DESIGN CHOICE (log entry 21):
any characters but a colon make a name, and a label with no instruction in its piece is refused. -/
def readLine (cs : List Char) : Option AssemblyLine :=
  match piecesAt (· == ':') cs with
  | [body] => readInstruction none (trimBlanks body)
  | [name, body] => readInstruction (some (trimBlanks name)) (trimBlanks body)
  | _ => none

/-- The labels and the addresses of their instructions. -/
def labelAddresses (addr : Nat) : List AssemblyLine → List (List Char × Nat)
  | [] => []
  | l :: ls =>
    match l.label with
    | none => labelAddresses (addr + l.opcode.length) ls
    | some name => (name, addr) :: labelAddresses (addr + l.opcode.length) ls

/-- A line's instruction: as many operands as its format has, of its format's kinds (30_encoding.md R80). -/
def lineInstr (labels : List (List Char × Nat)) (l : AssemblyLine) : Option Instr :=
  match l.opcode.format, l.operands with
  | .n, [] => some (l.opcode.instr 0#8 0#8)
  | .r, [a] => (readRegister a).map fun x => l.opcode.instr x 0#8
  | .rr, [a, b] => (readRegister a).bind fun x => (readRegister b).map fun y => l.opcode.instr x y
  | .ri, [a, v] => (readRegister a).bind fun x => (readImmediate labels v).map fun y => l.opcode.instr x y
  | _, _ => none

/-- The instructions of the lines, `none` when one of them is not in the notation. -/
def allSome {α β : Type} (f : α → Option β) : List α → Option (List β)
  | [] => some []
  | a :: as => (f a).bind fun b => (allSome f as).map (b :: ·)

/-- The bytes of an assembly text that stands at address 0; `none` when a piece is not in the notation (log entry
21). -/
def assemble (text : List Char) : Option (List Byte) :=
  let pieces := (piecesAt (fun c => c == ';' || c == '\n') text).filter fun p => !(trimBlanks p).isEmpty
  (allSome readLine pieces).bind fun lines =>
    (allSome (lineInstr (labelAddresses 0 lines)) lines).map fun is => is.flatMap encode

end Sys2Proof.Machine
end

