-- ==== Sys2Proof/WellFormed.lean ====
section
/-! DEFINITION. Well-formed instructions: every register operand names a register. "Inside a legal instruction the
only bits that can be illegal are those of a register operand byte" (30_encoding.md R92). -/

namespace Sys2Proof

/-- A register operand byte names a register when it is 0 to 7; all 8 bits count (30_encoding.md R82). -/
def namesRegister (b : Byte) : Bool := b.toNat < Config.nreg

/-- The register operand bytes of an instruction, by its format (30_encoding.md R80); LDI's `opB` is an immediate
(R83) and is not among them. -/
def Instr.registerBytes : Instr → List Byte
  | .hlt | .ret => []
  | .push a | .pop a | .prn a | .call a | .jmp a | .jeq a | .jne a => [a]
  | .ldi a _ => [a]
  | .add a b | .sub a b | .mul a b | .div a b | .cmp a b | .or a b | .xor a b | .shl a b | .shr a b => [a, b]

/-- Every register operand names a register. -/
def Instr.wf (i : Instr) : Bool := i.registerBytes.all namesRegister

end Sys2Proof
end

