-- ==== Sys2Proof/Safety.lean ====
section
/-! DEFINITION. The terms claims use: how a run ends, what counts as a safe step, the state invariant, and the words
of a frame (what a step leaves unchanged). -/

namespace Sys2Proof.Machine

/-! ## The end of a run (44_execution_cycle.md R171) -/

/-- The run has ended in a fault: halted with a cause. -/
abbrev State.EndedInFault (s : State) : Prop := s.run = .halted ∧ s.err ≠ .none

/-- The run has ended successfully: halted by HLT. -/
abbrev State.EndedSuccessfully (s : State) : Prop := s.run = .halted ∧ s.err = .none

/-- A safe step: the machine takes it, and it is no fault. -/
def SafeStep (s : State) : Prop := ∃ t, step s = .next t ∧ ¬ t.EndedInFault

/-! ## The invariant -/

/-- What every step keeps: memory in canonical form, `pc` in 0 to 256 (10_state.md R23), no error cause while
running (R28), and never the cause nothing raises (60_exceptions.md R184). -/
abbrev State.Inv (s : State) : Prop :=
  s.mem.wf ∧ s.pc.toNat ≤ 256 ∧ (s.run = .running → s.err = .none) ∧ s.err ≠ .unsupportedALUOperation

/-! ## Frames -/

/-- Every register outside `rs` is unchanged. -/
def RegsKeptBut (rs : List (Fin 8)) (s t : State) : Prop := ∀ q, q ∉ rs → t.reg q = s.reg q

/-- Every byte of memory reads as before. -/
def MemKept (s t : State) : Prop := ∀ addr : Int, t.memRead addr = s.memRead addr

/-- Every byte of memory outside cell `a` reads as before. -/
def MemKeptBut (a : Nat) (s t : State) : Prop := ∀ addr : Int, addr ≠ a → t.memRead addr = s.memRead addr

/-- The run state and the error cause are unchanged. -/
def ControlKept (s t : State) : Prop := t.run = s.run ∧ t.err = s.err

/-! ## The registers an instruction reads and writes (10_state.md R34), by number -/

/-- The "reads" column of 10_state.md R34. -/
def regsRead : Instr → List Nat
  | .ldi _ _ | .hlt => []
  | .prn a | .jmp a | .jeq a | .jne a => [a.toNat]
  | .add a b | .sub a b | .mul a b | .div a b | .or a b | .xor a b | .shl a b | .shr a b | .cmp a b =>
    [a.toNat, b.toNat]
  | .push a | .call a => [a.toNat, 7]
  | .pop _ | .ret => [7]

/-- The "writes" column of 10_state.md R34. -/
def regsWritten : Instr → List Nat
  | .ldi a _ => [a.toNat]
  | .prn _ | .hlt | .cmp _ _ | .jmp _ | .jeq _ | .jne _ => []
  | .add a _ | .sub a _ | .mul a _ | .div a _ | .or a _ | .xor a _ | .shl a _ | .shr a _ => [a.toNat]
  | .push _ | .call _ | .ret => [7]
  | .pop a => [a.toNat, 7]

end Sys2Proof.Machine
end

