-- ==== Sys2Proof/Certificates/Slice0/Obligations.lean ====
section
/-! DEFINITION. The statements for the provers. Each docstring names the rule or section of spec/ it formalises; where
a clause rests on a decision the spec marks as its own (92_eei_decisions.md) or on a log entry, the docstring says so. -/

open Sys2Proof Sys2Proof.Machine

/-! ## Encoding -/

/-- Decoding the encoding of any instruction, with any bytes after it, gives the instruction and those bytes back, with
every operand at every value; the machine's three-byte decoder agrees whatever the unused bytes are. Rests on
30_encoding.md sections 1 to 3 (the byte values are general knowledge, decision D1; log entry 3). -/
def Obligations.DecodeOfEncodeGivesInstruction : Prop :=
  ∀ (i : Instr) (tail : List Byte) (x y : Byte),
    decodeBytes (encode i ++ tail) = .ok (i, tail) ∧
    decode ((encode i ++ [x, y]).getD 0 0#8) ((encode i ++ [x, y]).getD 1 0#8) ((encode i ++ [x, y]).getD 2 0#8) =
      .ok i

/-- The other direction: what the decoder reads from three bytes encodes to the bytes that belong to it, and their
number is one more than the top two bits of the opcode byte. Rests on 30_encoding.md sections 1 to 3. -/
def Obligations.EncodeOfDecodeGivesFetchedBytes : Prop :=
  ∀ (op opA opB : Byte) (i : Instr), decode op opA opB = .ok i →
    encode i = [op, opA, opB].take (encode i).length ∧ (encode i).length = 1 + op.toNat / 64

/-- One word of each format and family, bit by bit from 30_encoding.md R84 and opcode_table.json (decision D1; log
entry 3), decodes to its instruction. -/
def Obligations.SampleWordsDecodeByTable : Prop :=
  decodeTableWord 8 0b00000001 = some .hlt ∧
  decodeTableWord 16 0b00000011_01000110 = some (.pop 3#8) ∧
  decodeTableWord 16 0b00000101_01010101 = some (.jeq 5#8) ∧
  decodeTableWord 24 0b11111111_00000100_10000010 = some (.ldi 4#8 255#8) ∧
  decodeTableWord 24 0b00000010_00000001_10100001 = some (.sub 1#8 2#8)

/-- The decoder knows exactly the 19 opcode bytes of 30_encoding.md R84 and nothing else (decision D1; log entry 3). -/
def Obligations.KnownOpcodesAreTheNineteen : Prop :=
  ∀ op : Byte, (decodeOpcode op).isSome = true ↔
    op.toNat ∈ [0x01, 0x11, 0x45, 0x46, 0x47, 0x50, 0x54, 0x55, 0x56, 0x82,
      0xA0, 0xA1, 0xA2, 0xA3, 0xA7, 0xAA, 0xAB, 0xAC, 0xAD]

/-- Fields of the opcode byte: for every known opcode bits 7:6 are the operand count and bit 5 is the ALU flag
(30_encoding.md section 1; that the flag is bit 5 is decision D1). -/
def Obligations.OpcodeBitsGiveOperandCountAndAluFlag : Prop :=
  ∀ (op : Byte) (o : Opcode), decodeOpcode op = some o →
    o.operandCount = op.toNat / 64 ∧ o.isAlu = op.getLsbD 5

/-! ## The step -/

/-- While running, when the three bytes at `pc` decode to an instruction, the step is that instruction's own rule and
nothing around it: the loop never moves `pc` itself. Rests on 44_execution_cycle.md sections 1 and 2. -/
def Obligations.StepRunsDecodedInstruction : Prop :=
  ∀ (s : State) (op opA opB : Byte) (i : Instr), s.run = .running →
    s.memRead s.pc.toNat = .ok op → s.memRead ((s.pc.toNat : Int) + 1) = .ok opA →
    s.memRead ((s.pc.toNat : Int) + 2) = .ok opB → decode op opA opB = .ok i →
    step s = exec i s

/-- The fetch reads three bytes whatever the instruction is: it completes exactly when `pc <= 253`, and from 254 on the
step raises `OutOfBounds` before anything is decoded. Rests on 44_execution_cycle.md section 1 (decision D3; log entry
6). -/
def Obligations.FetchNeedsThreeCells : Prop :=
  ∀ s : State, s.run = .running →
    (253 < s.pc.toNat → step s = .next { s with run := .halted, err := .outOfBounds }) ∧
    (s.pc.toNat ≤ 253 → ∃ op opA opB, s.memRead s.pc.toNat = .ok op ∧
      s.memRead ((s.pc.toNat : Int) + 1) = .ok opA ∧ s.memRead ((s.pc.toNat : Int) + 2) = .ok opB ∧
      fetchBytes s = .ok (op, opA, opB))

/-- An opcode byte the decoder does not know halts the machine with `UnsupportedInstruction` and mutates nothing; it is
neither skipped nor taken for HLT. Rests on 60_exceptions.md sections 1 and 4; that `pc`, the flag and the log are kept
too is decision D7 (log entry 7). -/
def Obligations.UnknownOpcodeHaltsWithoutMutation : Prop :=
  ∀ (s : State) (op opA opB : Byte), s.run = .running → fetchBytes s = .ok (op, opA, opB) →
    decodeOpcode op = none →
    ∃ t, step s = .next t ∧ t.run = .halted ∧ t.err = .unsupportedInstruction ∧
      RegsKeptBut [] s t ∧ MemKept s t ∧ t.pc = s.pc ∧ t.fl = s.fl ∧ t.out = s.out

/-- A halted state has no step (44_execution_cycle.md sections 1 and 2, decision D18); that the model answers this as
the fault `haltedHasNoStep` is log entry 1. -/
def Obligations.HaltedStateHasNoStep : Prop :=
  ∀ s : State, s.run = .halted → step s = .fault .haltedHasNoStep

/-- From every running state the step answers a next state: it either keeps running with no new error, or halts. A
step never refuses and never stops the model. Rests on 44_execution_cycle.md section 1. -/
def Obligations.StepIsTotalWhileRunning : Prop :=
  ∀ s : State, s.run = .running →
    ∃ t, step s = .next t ∧ ((t.run = .running ∧ t.err = s.err) ∨ t.run = .halted)

/-- Faults are precise: a step that ends with an error has written nothing but `run` and `err`. Rests on
60_exceptions.md section 4 (decision D7; log entry 7). -/
def Obligations.FaultsArePrecise : Prop :=
  ∀ s t : State, s.err = .none → step s = .next t → t.err ≠ .none →
    t = { s with run := .halted, err := t.err }

/-- The end of a run: the step that halts without an error executed an HLT, and in either case `pc` is the address of
the instruction that halted. Rests on 44_execution_cycle.md section 2 (decisions D4, D7; log entry 7). -/
def Obligations.EndOfRunTellsHltFromFault : Prop :=
  ∀ s t : State, s.err = .none → step s = .next t → t.run = .halted →
    t.pc = s.pc ∧
    (t.EndedSuccessfully ↔ ∃ op opA opB, fetchBytes s = .ok (op, opA, opB) ∧ decodeOpcode op = some .hlt) ∧
    (t.EndedInFault ↔ t.err ≠ .none)

/-- An operand byte that names no register raises `InvalidRegister`, before the instruction's own fault and whether or
not a jump would be taken; and no well-formed instruction raises it. Rests on 60_exceptions.md sections 1 and 3
(decisions D8, D16; log entries 9, 12). -/
def Obligations.BadRegisterOperandRaisesInvalidRegister : Prop :=
  (∀ (i : Instr) (s : State), i.wf = false →
    exec i s = .next { s with run := .halted, err := .invalidRegister }) ∧
  (∀ (i : Instr) (s t : State), i.wf = true → exec i s = .next t → t.err = .invalidRegister →
    s.err = .invalidRegister)

/-- Which instruction can raise which fault of its own, every case. Rests on 60_exceptions.md section 1 (decisions D6,
D15; log entries 8, 12). -/
def Obligations.FaultCausesByInstruction : Prop :=
  ∀ (i : Instr) (s t : State), s.err = .none → exec i s = .next t →
    (t.err = .divisionByZero → ∃ a b, i = .div a b) ∧
    (t.err = .outOfBounds →
      (((∃ a, i = .push a) ∨ (∃ a, i = .call a)) ∧ s.reg 7 = 0x00#8) ∨
      ((i = .ret ∨ ∃ a, i = .pop a ∧ a ≠ 7#8) ∧ s.reg 7 = 0xFF#8) ∨
      (i = .pop 7#8 ∧ s.memRead (s.reg 7).toNat = .ok 0xFF#8)) ∧
    t.err ≠ .unsupportedInstruction ∧ t.err ≠ .unsupportedALUOperation

/-! ## Reset, load and the invariant -/

/-- The reset state, item by item, and a reset from any state (10_state.md section 8; the rows of `err` and `out` are
derived there, and that a reset re-zeroes memory is decision D24, log entry 16). -/
def Obligations.ResetPutsEveryItemAtItsResetValue : Prop :=
  ∀ s : State, hostReset s = State.reset ∧
    (∀ addr : Int, 0 ≤ addr → addr ≤ 255 → State.reset.memRead addr = .ok 0x00#8) ∧
    (∀ r : Fin 8, State.reset.reg r = if r = 7 then 0xF4#8 else 0x00#8) ∧
    State.reset.pc = 0#9 ∧ State.reset.fl = .unset ∧ State.reset.run = .running ∧ State.reset.err = .none ∧
    State.reset.out = []

/-- The reset state meets the invariant. Rests on 10_state.md sections 3, 5 and 8. -/
def Obligations.ResetMeetsInvariant : Prop := State.reset.Inv

/-- Every step keeps the invariant: memory in canonical form, `pc` in 0 to 256, no error cause while running, and never
`UnsupportedALUOperation`. Rests on 10_state.md sections 3, 5 and 7 and 60_exceptions.md section 1 (decisions D2, D15;
log entries 4, 12). -/
def Obligations.StepKeepsInvariant : Prop :=
  ∀ s t : State, s.Inv → step s = .next t → t.Inv

/-- Program load: at most 256 bytes go to ascending cells from 0, the other cells stay 0x00, nothing else of the reset
state changes and the invariant holds; a longer program does not launch. Rests on 44_execution_cycle.md section 3 and
70_reset_and_hazards.md section 1 (decision D22; log entry 15). -/
def Obligations.LaunchPlacesProgramFromZero : Prop :=
  ∀ program : List Byte,
    (program.length ≤ 256 → ∃ s, launch program = some s ∧
      (∀ n : Nat, n < 256 → s.memRead n = .ok (program.getD n 0x00#8)) ∧
      RegsKeptBut [] State.reset s ∧ s.pc = State.reset.pc ∧ s.fl = State.reset.fl ∧ s.run = State.reset.run ∧
      s.err = State.reset.err ∧ s.out = State.reset.out ∧ s.Inv) ∧
    (256 < program.length → launch program = none)

/-! ## Memory -/

/-- The memory contract: in 0 to 255 a read answers and a write replaces exactly that cell;
elsewhere both raise `OutOfBounds`, with no wrap; a cell nothing has written reads 0x00; and the fetch reads, the
loader writes and an instruction changes memory only through these two operations: PUSH and CALL by one write at the
checked decrement of register 7, which their meanings compute, and no other instruction at all. Rests on 20_memory.md
sections 1 and 2 and 41_stack_call.md section 3; that the decrement is checked is decision D6 (log entry 8). What POP
and RET read is in `PopLoadsAtStackPointer` and `RetPopsReturnAddress`. -/
def Obligations.MemoryContract : Prop :=
  (∀ (s : State) (addr : Int), 0 ≤ addr → addr ≤ 255 → ∃ v, s.memRead addr = .ok v) ∧
  (∀ (s : State) (addr : Int) (v : Byte), addr < 0 ∨ 255 < addr →
    s.memRead addr = .error .outOfBounds ∧ s.memWrite addr v = .error .outOfBounds) ∧
  (∀ (s : State) (addr : Int) (v : Byte), 0 ≤ addr → addr ≤ 255 →
    ∃ t, s.memWrite addr v = .ok t ∧ t.memRead addr = .ok v ∧
      (∀ other : Int, other ≠ addr → t.memRead other = s.memRead other) ∧
      RegsKeptBut [] s t ∧ t.pc = s.pc ∧ t.fl = s.fl ∧ ControlKept s t ∧ t.out = s.out) ∧
  (∀ addr : Int, 0 ≤ addr → addr ≤ 255 → State.reset.memRead addr = .ok 0x00#8) ∧
  (∀ (i : Instr) (s t : State), (∀ a, i ≠ .push a) → (∀ a, i ≠ .call a) → exec i s = .next t → MemKept s t) ∧
  (∀ (i : Instr) (s t : State) (sp1 : Byte), ((∃ a, i = .push a) ∨ ∃ a, i = .call a) → i.wf = true →
    spDec (s.reg 7) = .ok sp1 → exec i s = .next t → ∃ v u, s.memWrite sp1.toNat v = .ok u ∧ MemKept u t) ∧
  (∀ (i : Instr) (s t : State), i.wf = false ∨ spDec (s.reg 7) = .error .outOfBounds → exec i s = .next t →
    MemKept s t) ∧
  (∀ (s : State) (op opA opB : Byte), fetchBytes s = .ok (op, opA, opB) ↔
    s.memRead s.pc.toNat = .ok op ∧ s.memRead ((s.pc.toNat : Int) + 1) = .ok opA ∧
      s.memRead ((s.pc.toNat : Int) + 2) = .ok opB) ∧
  (∀ (s t : State) (addr : Nat) (v : Byte) (rest : List Byte),
    (loadFrom s addr [] = .ok t ↔ t = s) ∧
    (loadFrom s addr (v :: rest) = .ok t ↔ ∃ u, s.memWrite addr v = .ok u ∧ loadFrom u (addr + 1) rest = .ok t))

/-- The canonical form is canonical: two memories in it that read the same are the same data. Rests on 20_memory.md
section 1 (the representation is the model's, log entry 20). -/
def Obligations.MemoriesThatReadTheSameAreEqual : Prop :=
  ∀ s t : State, s.mem.wf → t.mem.wf → MemKept s t → t.mem = s.mem

/-- Only PUSH and CALL write memory, and only the cell below the stack pointer: the address is the checked decrement of
register 7 that their meanings compute; where that decrement faults nothing is written. Rests on 20_memory.md section 2
and 41_stack_call.md section 3 (decisions D6, D7; log entries 7, 8). -/
def Obligations.OnlyPushAndCallWriteMemory : Prop :=
  (∀ (i : Instr) (s t : State), (∀ a, i ≠ .push a) → (∀ a, i ≠ .call a) → exec i s = .next t → MemKept s t) ∧
  (∀ (i : Instr) (s t : State) (sp1 : Byte), ((∃ a, i = .push a) ∨ ∃ a, i = .call a) → exec i s = .next t →
    spDec (s.reg 7) = .ok sp1 → MemKeptBut sp1.toNat s t) ∧
  (∀ (i : Instr) (s t : State), exec i s = .next t → s.reg 7 = 0x00#8 → MemKept s t)

/-- Self-modifying code works: a fetch at the cell a PUSH has written, in any later state that reads memory the same,
sees the pushed byte as the opcode. Rests on 20_memory.md section 8 (derived there) and, for the byte PUSH stores and
its address, on 41_stack_call.md section 3; that PUSH R7 stores the decremented value is decision D19 (log entry 11),
and that the decrement is checked is decision D6 (log entry 8). -/
def Obligations.PushedByteIsFetched : Prop :=
  ∀ (opA : Byte) (ha : opA.toNat < 8) (s t u : State) (sp1 : Byte), exec (.push opA) s = .next t →
    spDec (s.reg 7) = .ok sp1 → MemKept t u → u.pc = zext9 sp1 → u.pc.toNat ≤ 253 →
    ∃ x y, fetchBytes u = .ok (if opA = 7#8 then sp1 else s.reg ⟨opA.toNat, ha⟩, x, y)

/-! ## Whole-machine rules over all instructions -/

/-- The flag register (10_state.md R26): reset writes `UNSET`; only CMP writes it otherwise, and then one of the three
results; once set it is never `UNSET` again; JEQ and JNE see only whether it is `EQ`; and it never moves into a
register, memory, the console log, `run` or `err`. -/
def Obligations.OnlyCmpAndResetWriteFlag : Prop :=
  (∀ s : State, (hostReset s).fl = .unset) ∧
  (∀ (i : Instr) (s t : State), (∀ a b, i ≠ .cmp a b) → exec i s = .next t → t.fl = s.fl) ∧
  (∀ (a b : Byte) (s t : State), (Instr.cmp a b).wf = true → exec (.cmp a b) s = .next t →
    t.fl ∈ [Flag.eq, Flag.lt, Flag.gt]) ∧
  (∀ s t : State, step s = .next t → s.fl ≠ .unset → t.fl ≠ .unset) ∧
  (∀ (i : Instr) (s t : State) (f : Flag), (∀ a b, i ≠ .cmp a b) → (f = .eq ↔ s.fl = .eq) → exec i s = .next t →
    exec i { s with fl := f } = .next { t with fl := f }) ∧
  (∀ (i : Instr) (s t : State) (f : Flag), exec i s = .next t →
    ∃ t', exec i { s with fl := f } = .next t' ∧ RegsKeptBut [] t t' ∧ MemKept t t' ∧ t'.out = t.out ∧
      ControlKept t t')

/-- No register outside the table's columns is read or written (the upper bound of 10_state.md section 2's table of
reads and writes; that the registers in the columns are used is in each instruction's own statement): a register
outside the "writes" column keeps its value, and a register outside the "reads" column influences nothing: with another value in it the instruction has
the same effect on everything else, leaves it alone if it does not write it, and overwrites it with the same value
when it completes and does. JEQ and JNE use the register's value only when they jump. -/
def Obligations.RegistersReadAndWrittenByTable : Prop :=
  (∀ (i : Instr) (s t : State) (q : Fin 8), exec i s = .next t → q.val ∉ regsWritten i → t.reg q = s.reg q) ∧
  (∀ (i : Instr) (s t : State) (q : Fin 8) (v : Byte), exec i s = .next t → q.val ∉ regsRead i →
    ∃ t', exec i (s.setReg q v) = .next t' ∧ RegsKeptBut [q] t t' ∧ MemKept t t' ∧ t'.pc = t.pc ∧ t'.fl = t.fl ∧
      ControlKept t t' ∧ t'.out = t.out ∧
      (q.val ∉ regsWritten i → t'.reg q = v) ∧
      (q.val ∈ regsWritten i → t.pc ≠ s.pc → t'.reg q = t.reg q)) ∧
  (∀ (i : Instr) (s t : State) (q : Fin 8) (v : Byte),
    ((∃ a, i = .jeq a) ∧ s.fl ≠ .eq) ∨ ((∃ a, i = .jne a) ∧ s.fl = .eq) → exec i s = .next t →
    exec i (s.setReg q v) = .next (t.setReg q v))

/-- The next `pc` of an instruction that goes on: a fixed increment of 2 or 3, or an explicit overwrite with a
register's byte or with the byte at the stack pointer; HLT does not go on. -/
def NextPc (s t : State) : Instr → Prop
  | .push _ | .pop _ | .prn _ => t.pc.toNat = s.pc.toNat + 2
  | .ldi _ _ | .add _ _ | .sub _ _ | .mul _ _ | .div _ _ | .or _ _ | .xor _ _ | .shl _ _ | .shr _ _ | .cmp _ _ =>
    t.pc.toNat = s.pc.toNat + 3
  | .call a | .jmp a => ∃ r : Fin 8, r.val = a.toNat ∧ t.pc = zext9 (t.reg r)
  | .jeq a | .jne a => t.pc.toNat = s.pc.toNat + 2 ∨ ∃ r : Fin 8, r.val = a.toNat ∧ t.pc = zext9 (t.reg r)
  | .ret => ∃ v, s.memRead (s.reg 7).toNat = .ok v ∧ t.pc = zext9 v
  | .hlt => False

/-- The next `pc` (44_execution_cycle.md R164): the instruction's own handler sets it, by an increment of 2 or 3 that
does not overflow (the fetch needed `pc <= 253`) or by an overwrite, and a step adds nothing; it is held by HLT and by
every fault, and by nothing that goes on. -/
def Obligations.NextPcComesFromTheHandler : Prop :=
  ∀ s t : State, step s = .next t →
    (t.run = .running → s.pc.toNat ≤ 253 ∧ ∃ i, fetchInstr s = .ok i ∧ exec i s = .next t ∧ NextPc s t i) ∧
    (t.run = .halted → t.pc = s.pc)

/-- The console log grows only by PRN, one byte at its end, is never shortened, and is never read back: with another
log the instruction does the same and appends the same. Rests on 10_state.md section 6. -/
def Obligations.ConsoleLogOnlyGrowsByPrn : Prop :=
  (∀ (i : Instr) (s t : State), (∀ a, i ≠ .prn a) → exec i s = .next t → t.out = s.out) ∧
  (∀ s t : State, step s = .next t → ∃ w : List Byte, t.out = s.out ++ w ∧ w.length ≤ 1) ∧
  (∀ (i : Instr) (s t : State) (log : List Byte), exec i s = .next t →
    ∃ w, t.out = s.out ++ w ∧ exec i { s with out := log } = .next { t with out := log ++ w })

/-! ## ALU instructions -/

/-- The shape of the eight ALU instructions that write a register (40_alu.md section 2): on operands that name
registers the first gets the function of both, as unsigned numbers read before the write, `pc` advances by 3 and
nothing else changes; otherwise `InvalidRegister` and no other effect. -/
def AluWritesFirstRegister (mk : Byte → Byte → Instr) (f : Nat → Nat → Nat) : Prop :=
  ∀ (opA opB : Byte) (s : State),
    (∀ (ha : opA.toNat < 8) (hb : opB.toNat < 8), ∃ t, exec (mk opA opB) s = .next t ∧
      (t.reg ⟨opA.toNat, ha⟩).toNat = f (s.reg ⟨opA.toNat, ha⟩).toNat (s.reg ⟨opB.toNat, hb⟩).toNat ∧
      RegsKeptBut [⟨opA.toNat, ha⟩] s t ∧ t.pc = s.pc + 3 ∧ t.fl = s.fl ∧ MemKept s t ∧ t.out = s.out ∧
      ControlKept s t) ∧
    (8 ≤ opA.toNat ∨ 8 ≤ opB.toNat →
      exec (mk opA opB) s = .next { s with run := .halted, err := .invalidRegister })

/-- ADD: the sum modulo 256 (40_alu.md section 3; operands unsigned and destination by decisions D13, D14; log entry
10). -/
def Obligations.AddWritesSumModulo256 : Prop :=
  AluWritesFirstRegister .add fun va vb => (va + vb) % 256

/-- SUB: the difference modulo 256 (40_alu.md section 3; decisions D10, D13, D14; log entry 10). -/
def Obligations.SubWritesDifferenceModulo256 : Prop :=
  AluWritesFirstRegister .sub fun va vb => (((va : Int) - (vb : Int)) % 256).toNat

/-- MUL: the product modulo 256 (40_alu.md section 3; decisions D13, D14; log entry 10). -/
def Obligations.MulWritesProductModulo256 : Prop :=
  AluWritesFirstRegister .mul fun va vb => (va * vb) % 256

/-- OR: bitwise, bit `i` of the result set when bit `i` of either operand is (40_alu.md section 3; decision D14; log
entry 10). -/
def Obligations.OrWritesBitwiseOr : Prop :=
  AluWritesFirstRegister .or (fun va vb => va ||| vb) ∧
  ∀ (va vb : Byte) (k : Nat), (aluOr va vb).getLsbD k = (va.getLsbD k || vb.getLsbD k)

/-- XOR: bitwise, bit `i` of the result set when bit `i` of exactly one operand is (40_alu.md section 3; decision D14;
log entry 10). -/
def Obligations.XorWritesBitwiseXor : Prop :=
  AluWritesFirstRegister .xor (fun va vb => va ^^^ vb) ∧
  ∀ (va vb : Byte) (k : Nat), (aluXor va vb).getLsbD k = (va.getLsbD k != vb.getLsbD k)

/-- SHL: times two to the amount modulo 8, modulo 256 (40_alu.md section 3; decisions D12, D14; log entry 10). -/
def Obligations.ShlShiftsByAmountModulo8 : Prop :=
  AluWritesFirstRegister .shl fun va vb => (va * 2 ^ (vb % 8)) % 256

/-- SHR: the floor of the quotient by two to the amount modulo 8, a logical shift (40_alu.md section 3; decisions D12,
D14; log entry 10). -/
def Obligations.ShrShiftsByAmountModulo8 : Prop :=
  AluWritesFirstRegister .shr fun va vb => va / 2 ^ (vb % 8)

/-- DIV with a divisor that is not zero: the floor of the unsigned quotient into the first register, everything else
kept; a bad register operand is `InvalidRegister` (40_alu.md section 3; decisions D8, D11, D13, D14; log entry 10). -/
def Obligations.DivWritesFloorOfQuotient : Prop :=
  ∀ (opA opB : Byte) (s : State),
    (∀ (ha : opA.toNat < 8) (hb : opB.toNat < 8), s.reg ⟨opB.toNat, hb⟩ ≠ 0x00#8 →
      ∃ t, exec (.div opA opB) s = .next t ∧
        (t.reg ⟨opA.toNat, ha⟩).toNat = (s.reg ⟨opA.toNat, ha⟩).toNat / (s.reg ⟨opB.toNat, hb⟩).toNat ∧
        RegsKeptBut [⟨opA.toNat, ha⟩] s t ∧ t.pc = s.pc + 3 ∧ t.fl = s.fl ∧ MemKept s t ∧ t.out = s.out ∧
        ControlKept s t) ∧
    (8 ≤ opA.toNat ∨ 8 ≤ opB.toNat →
      exec (.div opA opB) s = .next { s with run := .halted, err := .invalidRegister })

/-- `DivisionByZero`: DIV raises it when both indices are good and the second register holds 0,
halting without mutating any register; a bad index is found first; no other instruction raises it.
Rests on 60_exceptions.md sections 1, 3 and 4 and 40_alu.md section 3; that `pc`, memory, the flag and the log are kept
too is decision D7 and the order of the checks D8 (log entries 7, 9). -/
def Obligations.DivByZeroHaltsWithoutMutation : Prop :=
  (∀ (opA opB : Byte) (s : State) (_ : opA.toNat < 8) (hb : opB.toNat < 8), s.reg ⟨opB.toNat, hb⟩ = 0x00#8 →
    ∃ t, exec (.div opA opB) s = .next t ∧ t.run = .halted ∧ t.err = .divisionByZero ∧
      RegsKeptBut [] s t ∧ MemKept s t ∧ t.fl = s.fl ∧ t.out = s.out ∧ t.pc = s.pc) ∧
  (∀ (opA opB : Byte) (s t : State), 8 ≤ opA.toNat ∨ 8 ≤ opB.toNat → exec (.div opA opB) s = .next t →
    t.err = .invalidRegister) ∧
  (∀ (i : Instr) (s t : State), (∀ a b, i ≠ .div a b) → exec i s = .next t → t.err = .divisionByZero →
    s.err = .divisionByZero)

/-- CMP: writes `fl` whole with the unsigned order of the two registers, changes no register, advances by 3; a bad
register operand is `InvalidRegister` and leaves `fl` (40_alu.md section 3; decision D13; log entry 10). -/
def Obligations.CmpWritesUnsignedOrder : Prop :=
  ∀ (opA opB : Byte) (s : State),
    (∀ (ha : opA.toNat < 8) (hb : opB.toNat < 8), ∃ t, exec (.cmp opA opB) s = .next t ∧
      (t.fl = .eq ↔ (s.reg ⟨opA.toNat, ha⟩).toNat = (s.reg ⟨opB.toNat, hb⟩).toNat) ∧
      (t.fl = .lt ↔ (s.reg ⟨opA.toNat, ha⟩).toNat < (s.reg ⟨opB.toNat, hb⟩).toNat) ∧
      (t.fl = .gt ↔ (s.reg ⟨opB.toNat, hb⟩).toNat < (s.reg ⟨opA.toNat, ha⟩).toNat) ∧
      RegsKeptBut [] s t ∧ t.pc = s.pc + 3 ∧ MemKept s t ∧ t.out = s.out ∧ ControlKept s t) ∧
    (8 ≤ opA.toNat ∨ 8 ≤ opB.toNat →
      exec (.cmp opA opB) s = .next { s with run := .halted, err := .invalidRegister })

/-! ## Stack and subroutine instructions -/

/-- PUSH (41_stack_call.md R131): the bytes `45 0a` store the register, read after the decrement, at the
address the decrement gives, and `pc` advances by 2; `InvalidRegister` first, then `OutOfBounds` when register 7 is 0,
in both cases with nothing written. Behind the rule stand the spec's decisions D6, D7, D8, D19 (log entries 7, 8, 9,
11). -/
def Obligations.PushStoresBelowStackPointer : Prop :=
  ∀ (opA : Byte) (s : State),
    (∀ opB, decode 0x45#8 opA opB = .ok (.push opA)) ∧
    (∀ (ha : opA.toNat < 8) (sp1 : Byte), spDec (s.reg 7) = .ok sp1 → ∃ t, exec (.push opA) s = .next t ∧
      sp1.toNat + 1 = (s.reg 7).toNat ∧ t.reg 7 = sp1 ∧ RegsKeptBut [7] s t ∧
      t.memRead sp1.toNat = .ok (if opA = 7#8 then sp1 else s.reg ⟨opA.toNat, ha⟩) ∧ MemKeptBut sp1.toNat s t ∧
      t.pc = s.pc + 2 ∧ t.fl = s.fl ∧ t.out = s.out ∧ ControlKept s t) ∧
    (8 ≤ opA.toNat → exec (.push opA) s = .next { s with run := .halted, err := .invalidRegister }) ∧
    (opA.toNat < 8 → s.reg 7 = 0x00#8 → exec (.push opA) s = .next { s with run := .halted, err := .outOfBounds }) ∧
    (s.reg 7 ≠ 0x00#8 → ∃ sp1, spDec (s.reg 7) = .ok sp1)

/-- POP (41_stack_call.md R132): by the bytes `46 0a` the operand register gets the byte at register 7, then register 7
is incremented (the popped byte plus 1 for POP R7), `pc` advances by 2 and memory is unchanged; `InvalidRegister`
first, then `OutOfBounds` when the increment would give 256, in both cases with nothing written. Behind the rule stand
the spec's decisions D6, D7, D8, D19 (log entries 7, 8, 9, 11). -/
def Obligations.PopLoadsAtStackPointer : Prop :=
  ∀ (opA : Byte) (s : State),
    (∀ opB, decode 0x46#8 opA opB = .ok (.pop opA)) ∧
    (∀ (ha : opA.toNat < 8) (v : Byte), s.memRead (s.reg 7).toNat = .ok v →
      ((if opA = 7#8 then v else s.reg 7) ≠ 0xFF#8 → ∃ t, exec (.pop opA) s = .next t ∧
        (t.reg 7).toNat = (if opA = 7#8 then v else s.reg 7).toNat + 1 ∧
        (opA ≠ 7#8 → t.reg ⟨opA.toNat, ha⟩ = v) ∧ RegsKeptBut [⟨opA.toNat, ha⟩, 7] s t ∧
        t.pc = s.pc + 2 ∧ t.fl = s.fl ∧ MemKept s t ∧ t.out = s.out ∧ ControlKept s t) ∧
      ((if opA = 7#8 then v else s.reg 7) = 0xFF#8 →
        exec (.pop opA) s = .next { s with run := .halted, err := .outOfBounds })) ∧
    (8 ≤ opA.toNat → exec (.pop opA) s = .next { s with run := .halted, err := .invalidRegister }) ∧
    (∃ v, s.memRead (s.reg 7).toNat = .ok v)

/-- CALL: pushes the return address, `pc + 2` at every `pc` a fetch can stand at, at the address the decrement of
register 7 gives and jumps to the register, read after the decrement; `InvalidRegister` first, then `OutOfBounds` when register 7 is 0 (41_stack_call.md
section 3; decisions D6, D8, D19; log entries 4, 8, 9, 11). -/
def Obligations.CallPushesReturnAddressAndJumps : Prop :=
  ∀ (opA : Byte) (s : State),
    (∀ (ha : opA.toNat < 8) (sp1 : Byte), spDec (s.reg 7) = .ok sp1 →
      ∃ t ret, exec (.call opA) s = .next t ∧ sp1.toNat + 1 = (s.reg 7).toNat ∧ t.reg 7 = sp1 ∧
        RegsKeptBut [7] s t ∧ (s.pc.toNat ≤ 253 → ret.toNat = s.pc.toNat + 2) ∧ t.memRead sp1.toNat = .ok ret ∧
        MemKeptBut sp1.toNat s t ∧
        t.pc = zext9 (if opA = 7#8 then sp1 else s.reg ⟨opA.toNat, ha⟩) ∧ t.fl = s.fl ∧ t.out = s.out ∧
        ControlKept s t) ∧
    (8 ≤ opA.toNat → exec (.call opA) s = .next { s with run := .halted, err := .invalidRegister }) ∧
    (opA.toNat < 8 → s.reg 7 = 0x00#8 → exec (.call opA) s = .next { s with run := .halted, err := .outOfBounds })

/-- RET (41_stack_call.md R134): the instruction byte `11` pops the byte at register 7 into `pc` and increments register
7; `OutOfBounds` when register 7 is 255, with nothing written, and no other fault. Behind the rule stand the spec's
decisions D6, D7 (log entries 7, 8). -/
def Obligations.RetPopsReturnAddress : Prop :=
  (∀ opA opB, decode 0x11#8 opA opB = .ok .ret) ∧
  ∀ (s : State) (v : Byte), s.memRead (s.reg 7).toNat = .ok v →
    (s.reg 7 ≠ 0xFF#8 → ∃ t, exec .ret s = .next t ∧ t.pc = zext9 v ∧ (t.reg 7).toNat = (s.reg 7).toNat + 1 ∧
      RegsKeptBut [7] s t ∧ t.fl = s.fl ∧ MemKept s t ∧ t.out = s.out ∧ ControlKept s t) ∧
    (s.reg 7 = 0xFF#8 → exec .ret s = .next { s with run := .halted, err := .outOfBounds })

/-- PUSH r then POP r', neither of them register 7, moves r to r' and restores register 7 (95_test_vectors.md S2;
90_conflicts.md C6 excludes register 7). -/
def Obligations.PushThenPopMovesRegister : Prop :=
  ∀ (a b : Byte) (s : State) (ha : a.toNat < 8) (hb : b.toNat < 8), a ≠ 7#8 → b ≠ 7#8 → s.reg 7 ≠ 0x00#8 →
    ∃ t u, exec (.push a) s = .next t ∧ exec (.pop b) t = .next u ∧
      u.reg ⟨b.toNat, hb⟩ = s.reg ⟨a.toNat, ha⟩ ∧ u.reg 7 = s.reg 7 ∧ RegsKeptBut [⟨b.toNat, hb⟩] s u ∧
      u.pc = s.pc + 4

/-- The call protocol: after a CALL, from any state in which register 7 and the byte it points at are as the CALL left
them, RET resumes at the instruction after the CALL with register 7 at its value before the CALL. Rests on
41_stack_call.md section 4 (derived there). -/
def Obligations.RetResumesAfterCall : Prop :=
  ∀ (a : Byte) (s t u : State), a.toNat < 8 → s.pc.toNat ≤ 253 → s.reg 7 ≠ 0x00#8 → exec (.call a) s = .next t →
    u.reg 7 = t.reg 7 → u.memRead (t.reg 7).toNat = t.memRead (t.reg 7).toNat →
    ∃ w, exec .ret u = .next w ∧ w.pc.toNat = s.pc.toNat + 2 ∧ w.reg 7 = s.reg 7 ∧ RegsKeptBut [7] u w ∧ MemKept u w

/-! ## Jumps -/

/-- JMP (42_jump.md R141): by the bytes `54 0a` the `pc` gets the register's byte and nothing else changes; an operand that
names no register is `InvalidRegister` with `pc` unchanged. -/
def Obligations.JmpSetsPcToRegister : Prop :=
  ∀ (opA : Byte) (s : State),
    (∀ opB, decode 0x54#8 opA opB = .ok (.jmp opA)) ∧
    (∀ ha : opA.toNat < 8, ∃ t, exec (.jmp opA) s = .next t ∧ t.pc = zext9 (s.reg ⟨opA.toNat, ha⟩) ∧
      RegsKeptBut [] s t ∧ t.fl = s.fl ∧ MemKept s t ∧ t.out = s.out ∧ ControlKept s t) ∧
    (8 ≤ opA.toNat → ∃ t, exec (.jmp opA) s = .next t ∧ t.run = .halted ∧ t.err = .invalidRegister ∧
      t.pc = s.pc)

/-- JEQ: taken exactly when `fl` is `EQ`, not while it is `UNSET`; the index is checked either way (42_jump.md section
3; decisions D8, D25; log entries 9, 13). -/
def Obligations.JeqJumpsWhenEqual : Prop :=
  ∀ (opA : Byte) (s : State),
    (∀ ha : opA.toNat < 8, ∃ t, exec (.jeq opA) s = .next t ∧
      (s.fl = .eq → t.pc = zext9 (s.reg ⟨opA.toNat, ha⟩)) ∧ (s.fl ≠ .eq → t.pc = s.pc + 2) ∧
      RegsKeptBut [] s t ∧ t.fl = s.fl ∧ MemKept s t ∧ t.out = s.out ∧ ControlKept s t) ∧
    (8 ≤ opA.toNat → exec (.jeq opA) s = .next { s with run := .halted, err := .invalidRegister })

/-- JNE: taken exactly when `fl` is not `EQ`, also while it is `UNSET`; the index is checked either way (42_jump.md
section 3; decisions D8, D25; log entries 9, 13). -/
def Obligations.JneJumpsWhenNotEqual : Prop :=
  ∀ (opA : Byte) (s : State),
    (∀ ha : opA.toNat < 8, ∃ t, exec (.jne opA) s = .next t ∧
      (s.fl ≠ .eq → t.pc = zext9 (s.reg ⟨opA.toNat, ha⟩)) ∧ (s.fl = .eq → t.pc = s.pc + 2) ∧
      RegsKeptBut [] s t ∧ t.fl = s.fl ∧ MemKept s t ∧ t.out = s.out ∧ ControlKept s t) ∧
    (8 ≤ opA.toNat → exec (.jne opA) s = .next { s with run := .halted, err := .invalidRegister })

/-- A comparison and the jump after it: after CMP a, b, JEQ is taken exactly when the registers are equal and JNE
exactly when they are not, so with a < b JNE is taken and JEQ is not (95_test_vectors.md S4). -/
def Obligations.CompareThenConditionalJump : Prop :=
  ∀ (a b c : Byte) (s : State) (ha : a.toNat < 8) (hb : b.toNat < 8) (hc : c.toNat < 8),
    ∃ t je jn, exec (.cmp a b) s = .next t ∧ exec (.jeq c) t = .next je ∧ exec (.jne c) t = .next jn ∧
      (s.reg ⟨a.toNat, ha⟩ = s.reg ⟨b.toNat, hb⟩ → je.pc = zext9 (s.reg ⟨c.toNat, hc⟩) ∧ jn.pc = s.pc + 5) ∧
      (s.reg ⟨a.toNat, ha⟩ ≠ s.reg ⟨b.toNat, hb⟩ → je.pc = s.pc + 5 ∧ jn.pc = zext9 (s.reg ⟨c.toNat, hc⟩)) ∧
      ((s.reg ⟨a.toNat, ha⟩).toNat < (s.reg ⟨b.toNat, hb⟩).toNat → t.fl = .lt)

/-! ## Load-immediate, print, halt -/

/-- LDI (43_ldi_prn_hlt.md R150): by the bytes `82 0a vv` the register gets the immediate byte, every value of it, `pc`
advances by 3 and nothing else changes; an operand that names no register is `InvalidRegister` (that a
fault writes nothing else is `FaultsArePrecise`). -/
def Obligations.LdiWritesImmediate : Prop :=
  ∀ (opA v : Byte) (s : State),
    decode 0x82#8 opA v = .ok (.ldi opA v) ∧
    (∀ ha : opA.toNat < 8, ∃ t, exec (.ldi opA v) s = .next t ∧ t.reg ⟨opA.toNat, ha⟩ = v ∧
      RegsKeptBut [⟨opA.toNat, ha⟩] s t ∧ t.pc = s.pc + 3 ∧ t.fl = s.fl ∧ MemKept s t ∧ t.out = s.out ∧
      ControlKept s t) ∧
    (8 ≤ opA.toNat → ∃ t, exec (.ldi opA v) s = .next t ∧ t.run = .halted ∧ t.err = .invalidRegister)

/-- PRN (43_ldi_prn_hlt.md R151): the bytes `47 0a` append the register's byte to the console log, whose text grows by
its decimal numeral and a newline; `pc` advances by 2 and nothing else changes; an operand that names no register is
`InvalidRegister` and emits nothing. The exact characters, no leading zeros and the newline 0x0A, are decision D21 (log
entry 14). -/
def Obligations.PrnEmitsRegister : Prop :=
  ∀ (opA : Byte) (s : State),
    (∀ opB, decode 0x47#8 opA opB = .ok (.prn opA)) ∧
    (∀ ha : opA.toNat < 8, ∃ t, exec (.prn opA) s = .next t ∧ t.out = s.out ++ [s.reg ⟨opA.toNat, ha⟩] ∧
      consoleText t.out =
        consoleText s.out ++ Nat.toDigits 10 (s.reg ⟨opA.toNat, ha⟩).toNat ++ [Char.ofNat 0x0A] ∧
      RegsKeptBut [] s t ∧ t.pc = s.pc + 2 ∧ t.fl = s.fl ∧ MemKept s t ∧ ControlKept s t) ∧
    (8 ≤ opA.toNat → ∃ t, exec (.prn opA) s = .next t ∧ t.run = .halted ∧ t.err = .invalidRegister ∧
      t.out = s.out)

/-- HLT: halts with no error and changes nothing else, `pc` staying at the HLT (43_ldi_prn_hlt.md section 2; decision D4;
log entry 7). -/
def Obligations.HltHaltsWithoutError : Prop :=
  ∀ s : State, exec .hlt s = .next { s with run := .halted, err := .none }

/-- LDI r, v then PRN r shows exactly the decimal string of v and a newline, for every register and immediate
(95_test_vectors.md S1; the exact characters are decision D21; log entry 14). -/
def Obligations.LdiThenPrnPrintsImmediate : Prop :=
  ∀ (r v : Byte) (s : State), r.toNat < 8 →
    ∃ t u, exec (.ldi r v) s = .next t ∧ exec (.prn r) t = .next u ∧ u.out = s.out ++ [v] ∧
      consoleText u.out = consoleText s.out ++ Nat.toDigits 10 v.toNat ++ ['\n']

/-! ## The program file format -/

/-- The text of a program, one 8-character binary literal a line, most significant bit first, with a comment after it
and comment-only lines between, reads back as its bytes in order (30_encoding.md section 5). -/
def Obligations.ProgramTextReadsBackItsBytes : Prop :=
  ∀ (program : List Byte) (comment : List Char),
    parseProgram (program.flatMap fun v =>
      [(List.range 8).map (fun k => if v.getLsbD (7 - k) then '1' else '0') ++ [' ', '#'] ++ comment,
       '#' :: comment, []]) = some program

/-- The text of any instruction in the notation of the spec, with every operand at every value, assembles to the
instruction's encoding; and so does a list of them separated by line ends (30_encoding.md section 5; decision D1 for
the byte values, log entry 3). -/
def Obligations.AssemblyTextAssemblesToEncoding : Prop :=
  ∀ program : List Instr,
    assemble (program.flatMap fun i => instrText i ++ ['\n']) = some (program.flatMap encode)
end

