-- ==== Sys2Proof/Laws/Decode.lean ====
section
/-! SUPPORT. The opcode table read both ways. -/

namespace Sys2Proof

/-- The decoder knows every identity's own byte. -/
@[simp] theorem decodeOpcode_byte (o : Opcode) : decodeOpcode o.byte = some o := by
  cases o <;> rfl

/-- A byte the decoder knows is its identity's byte. -/
theorem byte_of_decodeOpcode {op : Byte} {o : Opcode} (h : decodeOpcode op = some o) : o.byte = op := by
  have all : ∀ op : Byte, (decodeOpcode op).all (fun o => o.byte == op) = true := by decide
  have := all op
  rw [h] at this
  exact eq_of_beq this

/-- The three-byte decoder in terms of the opcode byte. -/
theorem decode_known {op : Byte} {o : Opcode} (h : decodeOpcode op = some o) (opA opB : Byte) :
    decode op opA opB = .ok (o.instr opA opB) := by
  simp [decode, h]

theorem decode_unknown {op : Byte} (h : decodeOpcode op = none) (opA opB : Byte) :
    decode op opA opB = .error (.unknownOpcode op) := by
  simp [decode, h]

/-- If the decoder answers an instruction, the opcode byte has an identity and the instruction is made of it. -/
theorem decode_cases {op opA opB : Byte} {i : Instr} (h : decode op opA opB = .ok i) :
    ∃ o, decodeOpcode op = some o ∧ i = o.instr opA opB := by
  unfold decode at h
  split at h
  · cases h
  · rename_i o ho; exact ⟨o, ho, by cases h; rfl⟩

end Sys2Proof
end

