-- ==== Sys2Proof/Laws/State.lean ====
section
/-! SUPPORT. One lemma per field per update of State, and the register file's read-after-write laws. -/

namespace Sys2Proof.Machine

@[simp] theorem State.setReg_mem (s : State) (r : Fin 8) (v : Byte) : (s.setReg r v).mem = s.mem := rfl
@[simp] theorem State.setReg_pc (s : State) (r : Fin 8) (v : Byte) : (s.setReg r v).pc = s.pc := rfl
@[simp] theorem State.setReg_fl (s : State) (r : Fin 8) (v : Byte) : (s.setReg r v).fl = s.fl := rfl
@[simp] theorem State.setReg_run (s : State) (r : Fin 8) (v : Byte) : (s.setReg r v).run = s.run := rfl
@[simp] theorem State.setReg_err (s : State) (r : Fin 8) (v : Byte) : (s.setReg r v).err = s.err := rfl
@[simp] theorem State.setReg_out (s : State) (r : Fin 8) (v : Byte) : (s.setReg r v).out = s.out := rfl

@[simp] theorem State.advancePc_mem (s : State) (n : PcWord) : (s.advancePc n).mem = s.mem := rfl
@[simp] theorem State.advancePc_regs (s : State) (n : PcWord) : (s.advancePc n).regs = s.regs := rfl
@[simp] theorem State.advancePc_reg (s : State) (n : PcWord) (r : Fin 8) : (s.advancePc n).reg r = s.reg r := rfl
@[simp] theorem State.advancePc_pc (s : State) (n : PcWord) : (s.advancePc n).pc = s.pc + n := rfl
@[simp] theorem State.advancePc_fl (s : State) (n : PcWord) : (s.advancePc n).fl = s.fl := rfl
@[simp] theorem State.advancePc_run (s : State) (n : PcWord) : (s.advancePc n).run = s.run := rfl
@[simp] theorem State.advancePc_err (s : State) (n : PcWord) : (s.advancePc n).err = s.err := rfl
@[simp] theorem State.advancePc_out (s : State) (n : PcWord) : (s.advancePc n).out = s.out := rfl

@[simp] theorem State.jumpTo_mem (s : State) (b : Byte) : (s.jumpTo b).mem = s.mem := rfl
@[simp] theorem State.jumpTo_regs (s : State) (b : Byte) : (s.jumpTo b).regs = s.regs := rfl
@[simp] theorem State.jumpTo_reg (s : State) (b : Byte) (r : Fin 8) : (s.jumpTo b).reg r = s.reg r := rfl
@[simp] theorem State.jumpTo_pc (s : State) (b : Byte) : (s.jumpTo b).pc = zext9 b := rfl
@[simp] theorem State.jumpTo_fl (s : State) (b : Byte) : (s.jumpTo b).fl = s.fl := rfl
@[simp] theorem State.jumpTo_run (s : State) (b : Byte) : (s.jumpTo b).run = s.run := rfl
@[simp] theorem State.jumpTo_err (s : State) (b : Byte) : (s.jumpTo b).err = s.err := rfl
@[simp] theorem State.jumpTo_out (s : State) (b : Byte) : (s.jumpTo b).out = s.out := rfl

@[simp] theorem State.emit_mem (s : State) (v : Byte) : (s.emit v).mem = s.mem := rfl
@[simp] theorem State.emit_regs (s : State) (v : Byte) : (s.emit v).regs = s.regs := rfl
@[simp] theorem State.emit_reg (s : State) (v : Byte) (r : Fin 8) : (s.emit v).reg r = s.reg r := rfl
@[simp] theorem State.emit_pc (s : State) (v : Byte) : (s.emit v).pc = s.pc := rfl
@[simp] theorem State.emit_fl (s : State) (v : Byte) : (s.emit v).fl = s.fl := rfl
@[simp] theorem State.emit_run (s : State) (v : Byte) : (s.emit v).run = s.run := rfl
@[simp] theorem State.emit_err (s : State) (v : Byte) : (s.emit v).err = s.err := rfl
@[simp] theorem State.emit_out (s : State) (v : Byte) : (s.emit v).out = s.out ++ [v] := rfl

@[simp] theorem State.setCell_mem (s : State) (n : Nat) (v : Byte) : (s.setCell n v).mem = s.mem.poke n v := rfl
@[simp] theorem State.setCell_regs (s : State) (n : Nat) (v : Byte) : (s.setCell n v).regs = s.regs := rfl
@[simp] theorem State.setCell_reg (s : State) (n : Nat) (v : Byte) (r : Fin 8) : (s.setCell n v).reg r = s.reg r := rfl
@[simp] theorem State.setCell_pc (s : State) (n : Nat) (v : Byte) : (s.setCell n v).pc = s.pc := rfl
@[simp] theorem State.setCell_fl (s : State) (n : Nat) (v : Byte) : (s.setCell n v).fl = s.fl := rfl
@[simp] theorem State.setCell_run (s : State) (n : Nat) (v : Byte) : (s.setCell n v).run = s.run := rfl
@[simp] theorem State.setCell_err (s : State) (n : Nat) (v : Byte) : (s.setCell n v).err = s.err := rfl
@[simp] theorem State.setCell_out (s : State) (n : Nat) (v : Byte) : (s.setCell n v).out = s.out := rfl

@[simp] theorem State.setFlag_mem (s : State) (f : Flag) : (s.setFlag f).mem = s.mem := rfl
@[simp] theorem State.setFlag_regs (s : State) (f : Flag) : (s.setFlag f).regs = s.regs := rfl
@[simp] theorem State.setFlag_reg (s : State) (f : Flag) (r : Fin 8) : (s.setFlag f).reg r = s.reg r := rfl
@[simp] theorem State.setFlag_pc (s : State) (f : Flag) : (s.setFlag f).pc = s.pc := rfl
@[simp] theorem State.setFlag_fl (s : State) (f : Flag) : (s.setFlag f).fl = f := rfl
@[simp] theorem State.setFlag_run (s : State) (f : Flag) : (s.setFlag f).run = s.run := rfl
@[simp] theorem State.setFlag_err (s : State) (f : Flag) : (s.setFlag f).err = s.err := rfl
@[simp] theorem State.setFlag_out (s : State) (f : Flag) : (s.setFlag f).out = s.out := rfl

@[simp] theorem takeFault_mem (c : ErrorCause) (s : State) : (takeFault c s).mem = s.mem := rfl
@[simp] theorem takeFault_regs (c : ErrorCause) (s : State) : (takeFault c s).regs = s.regs := rfl
@[simp] theorem takeFault_reg (c : ErrorCause) (s : State) (r : Fin 8) : (takeFault c s).reg r = s.reg r := rfl
@[simp] theorem takeFault_pc (c : ErrorCause) (s : State) : (takeFault c s).pc = s.pc := rfl
@[simp] theorem takeFault_fl (c : ErrorCause) (s : State) : (takeFault c s).fl = s.fl := rfl
@[simp] theorem takeFault_run (c : ErrorCause) (s : State) : (takeFault c s).run = .halted := rfl
@[simp] theorem takeFault_err (c : ErrorCause) (s : State) : (takeFault c s).err = c := rfl
@[simp] theorem takeFault_out (c : ErrorCause) (s : State) : (takeFault c s).out = s.out := rfl

/-- A register written reads back the value written. -/
@[simp] theorem State.reg_setReg_same (s : State) (r : Fin 8) (v : Byte) : (s.setReg r v).reg r = v := by
  simp [State.reg, State.setReg]

/-- Writing a register leaves every other register alone. -/
theorem State.reg_setReg_ne (s : State) {r q : Fin 8} (v : Byte) (h : q ≠ r) :
    (s.setReg r v).reg q = s.reg q := by
  have hv : (r : Nat) ≠ q := fun e => h (Fin.ext e.symm)
  simp [State.reg, State.setReg, hv]

/-- Reading a register after a write, whichever registers they are. -/
theorem State.reg_setReg (s : State) (r q : Fin 8) (v : Byte) :
    (s.setReg r v).reg q = if q = r then v else s.reg q := by
  split
  · rename_i h; subst h; simp
  · rename_i h; exact State.reg_setReg_ne s v h

/-- The register file is what reading its eight registers gives. -/
theorem State.regs_ext {s t : State} (h : ∀ r, t.reg r = s.reg r) : t.regs = s.regs := by
  apply Vector.ext
  intro i hi
  exact h ⟨i, hi⟩

end Sys2Proof.Machine
end

