-- ==== Sys2Proof/Laws/Memory.lean ====
section
/-! SUPPORT. The memory contract: read after write, canonical form kept, and what MemRead and MemWrite answer. -/

namespace Sys2Proof.Machine

theorem Memory.peek_insertCell_same (m : Memory) (a : Nat) (v : Byte) (h : ∀ c ∈ m, c.1 ≠ a) :
    (Memory.insertCell (a, v) m).peek a = v := by
  induction m with
  | nil => simp [Memory.insertCell, Memory.peek]
  | cons d m ih =>
    have hd : d.1 ≠ a := h d (by simp)
    have hm : ∀ c ∈ m, c.1 ≠ a := fun c hc => h c (by simp [hc])
    by_cases hlt : a < d.1
    · simp [Memory.insertCell, Memory.peek, hlt]
    · simp [Memory.insertCell, Memory.peek, hlt, hd, ih hm]

theorem Memory.peek_insertCell_ne (m : Memory) {a b : Nat} (v : Byte) (h : b ≠ a) :
    (Memory.insertCell (a, v) m).peek b = m.peek b := by
  induction m with
  | nil => simp [Memory.insertCell, Memory.peek, h.symm]
  | cons d m ih =>
    by_cases hlt : a < d.1
    · simp [Memory.insertCell, Memory.peek, hlt, h.symm]
    · simp [Memory.insertCell, Memory.peek, hlt, ih]

theorem Memory.peek_erase_same (m : Memory) (a : Nat) :
    Memory.peek (m.filter (fun c => c.1 != a)) a = Config.unwrittenCell := by
  induction m with
  | nil => rfl
  | cons d m ih => by_cases hd : d.1 = a <;> simp [Memory.peek, hd, ih]

theorem Memory.peek_erase_ne (m : Memory) {a b : Nat} (h : b ≠ a) :
    Memory.peek (m.filter (fun c => c.1 != a)) b = m.peek b := by
  induction m with
  | nil => rfl
  | cons d m ih =>
    by_cases hd : d.1 = a
    · have : d.1 ≠ b := fun e => h (e.symm.trans hd)
      simp [Memory.peek, hd, ih, h.symm]
    · simp [Memory.peek, hd, ih]

/-- A cell written reads back the value written. -/
@[simp] theorem Memory.peek_poke_same (m : Memory) (a : Nat) (v : Byte) : (m.poke a v).peek a = v := by
  unfold Memory.poke
  split
  · rename_i h; rw [Memory.peek_erase_same, h]
  · exact Memory.peek_insertCell_same _ _ _ (by simp)

/-- Writing a cell leaves every other cell alone. -/
theorem Memory.peek_poke_ne (m : Memory) {a b : Nat} (v : Byte) (h : b ≠ a) :
    (m.poke a v).peek b = m.peek b := by
  unfold Memory.poke
  split
  · exact Memory.peek_erase_ne m h
  · rw [Memory.peek_insertCell_ne _ _ h, Memory.peek_erase_ne m h]

theorem Memory.mem_insertCell {c d : Host.Cell} {m : Memory} :
    d ∈ Memory.insertCell c m ↔ d = c ∨ d ∈ m := by
  induction m with
  | nil => simp [Memory.insertCell]
  | cons e m ih =>
    unfold Memory.insertCell
    split
    · simp
    · simp only [List.mem_cons, ih]; tauto

theorem Memory.insertCell_rising {c : Host.Cell} {m : Memory}
    (hm : m.Pairwise (fun c d => c.1 < d.1)) (hc : ∀ d ∈ m, d.1 ≠ c.1) :
    (Memory.insertCell c m).Pairwise (fun c d => c.1 < d.1) := by
  induction m with
  | nil => simp [Memory.insertCell]
  | cons e m ih =>
    obtain ⟨he, hm⟩ := List.pairwise_cons.mp hm
    have hne : e.1 ≠ c.1 := hc e (by simp)
    unfold Memory.insertCell
    split
    · rename_i hlt
      refine List.pairwise_cons.mpr ⟨?_, List.pairwise_cons.mpr ⟨he, hm⟩⟩
      intro d hd
      rcases List.mem_cons.mp hd with rfl | hd
      · exact hlt
      · exact Nat.lt_trans hlt (he d hd)
    · rename_i hlt
      refine List.pairwise_cons.mpr ⟨?_, ih hm (fun d hd => hc d (by simp [hd]))⟩
      intro d hd
      rcases Memory.mem_insertCell.mp hd with rfl | hd
      · omega
      · exact he d hd

/-- Writing an existing cell keeps the canonical form. -/
theorem Memory.poke_wf {m : Memory} (hm : m.wf) {a : Nat} (ha : a < Config.memSize) (v : Byte) : (m.poke a v).wf := by
  obtain ⟨hrise, hcells⟩ := hm
  have hrise' := hrise.filter (fun c => c.1 != a)
  unfold Memory.poke
  split
  · exact ⟨hrise', fun c hc => hcells c (List.mem_filter.mp hc).1⟩
  · rename_i hv
    refine ⟨Memory.insertCell_rising hrise' (by simp), fun c hc => ?_⟩
    rcases Memory.mem_insertCell.mp hc with rfl | hc
    · exact ⟨ha, hv⟩
    · exact hcells c (List.mem_filter.mp hc).1

/-- Memory after reset is in canonical form. -/
theorem reset_mem_wf : State.reset.mem.wf := by decide

/-- An address of a cell, 0 to 255. -/
def inBounds (addr : Int) : Prop := 0 ≤ addr ∧ addr ≤ 255

/-- The bounds check passes exactly the addresses of cells. -/
theorem cellIndex_cases (addr : Int) :
    (inBounds addr ∧ cellIndex addr = some addr.toNat) ∨ (¬ inBounds addr ∧ cellIndex addr = none) := by
  cases addr with
  | ofNat n =>
    by_cases h : n < 256
    · exact .inl ⟨by simp only [inBounds, Int.ofNat_eq_natCast]; omega, if_pos h⟩
    · exact .inr ⟨by simp only [inBounds, Int.ofNat_eq_natCast]; omega, if_neg h⟩
  | negSucc n => exact .inr ⟨by simp only [inBounds]; omega, rfl⟩

theorem cellIndex_of_inBounds {addr : Int} (h : inBounds addr) : cellIndex addr = some addr.toNat := by
  rcases cellIndex_cases addr with ⟨_, e⟩ | ⟨n, _⟩
  · exact e
  · exact absurd h n

theorem cellIndex_of_not_inBounds {addr : Int} (h : ¬ inBounds addr) : cellIndex addr = none := by
  rcases cellIndex_cases addr with ⟨y, _⟩ | ⟨_, e⟩
  · exact absurd y h
  · exact e

/-- In range, MemRead answers the cell. -/
theorem State.memRead_of_inBounds (s : State) {addr : Int} (h : inBounds addr) :
    s.memRead addr = .ok (s.mem.peek addr.toNat) := by
  simp only [State.memRead, cellIndex_of_inBounds h]

/-- Out of range, MemRead raises `OutOfBounds`. -/
theorem State.memRead_of_not_inBounds (s : State) {addr : Int} (h : ¬ inBounds addr) :
    s.memRead addr = .error .outOfBounds := by
  simp only [State.memRead, cellIndex_of_not_inBounds h]

/-- In range, MemWrite sets the cell and nothing else. -/
theorem State.memWrite_of_inBounds (s : State) {addr : Int} (v : Byte) (h : inBounds addr) :
    s.memWrite addr v = .ok (s.setCell addr.toNat v) := by
  simp only [State.memWrite, cellIndex_of_inBounds h]

/-- Out of range, MemWrite raises `OutOfBounds`. -/
theorem State.memWrite_of_not_inBounds (s : State) {addr : Int} (v : Byte) (h : ¬ inBounds addr) :
    s.memWrite addr v = .error .outOfBounds := by
  simp only [State.memWrite, cellIndex_of_not_inBounds h]

/-- The address of a cell, as a number, is in range. -/
theorem inBounds_of_lt {n : Nat} (h : n < 256) : inBounds (n : Int) := by
  simp only [inBounds]
  omega

/-- A read at a byte's address cannot fault. -/
@[simp] theorem State.memRead_byte (s : State) (b : Byte) : s.memRead (b.toNat : Int) = .ok (s.mem.peek b.toNat) :=
  s.memRead_of_inBounds (inBounds_of_lt b.isLt)

/-- A write at a byte's address cannot fault. -/
@[simp] theorem State.memWrite_byte (s : State) (b v : Byte) :
    s.memWrite (b.toNat : Int) v = .ok (s.setCell b.toNat v) :=
  s.memWrite_of_inBounds v (inBounds_of_lt b.isLt)

/-- Reads depend on memory alone. -/
theorem State.memRead_congr {s t : State} (h : t.mem = s.mem) (addr : Int) : t.memRead addr = s.memRead addr := by
  simp [State.memRead, h]

/-- If MemWrite answers, the address was in range and only that cell is set. -/
theorem State.memWrite_cases {s t : State} {addr : Int} {v : Byte} (h : s.memWrite addr v = .ok t) :
    inBounds addr ∧ t = s.setCell addr.toNat v := by
  rcases cellIndex_cases addr with ⟨hb, _⟩ | ⟨hb, _⟩
  · rw [s.memWrite_of_inBounds v hb] at h
    exact ⟨hb, by cases h; rfl⟩
  · rw [s.memWrite_of_not_inBounds v hb] at h
    cases h

/-- A write leaves the read of every other address alone. -/
theorem State.memRead_setCell_ne (s : State) {a : Nat} {addr : Int} (v : Byte) (h : addr ≠ a) :
    (s.setCell a v).memRead addr = s.memRead addr := by
  by_cases hb : inBounds addr
  · have hne : addr.toNat ≠ a := by have := hb.1; omega
    rw [State.memRead_of_inBounds _ hb, State.memRead_of_inBounds _ hb]
    simp only [State.setCell_mem, Memory.peek_poke_ne _ _ hne]
  · rw [State.memRead_of_not_inBounds _ hb, State.memRead_of_not_inBounds _ hb]

/-- A cell written reads back the value written. -/
theorem State.memRead_setCell_same (s : State) (b v : Byte) :
    (s.setCell b.toNat v).memRead (b.toNat : Int) = .ok v := by
  simp

end Sys2Proof.Machine
end

