-- ==== Sys2Proof/Laws/Operands.lean ====
section
/-! SUPPORT. What each shared operation can do: the register check, the stack pointer, the end of an instruction,
the operand forms, and the common rules of the families. -/

namespace Sys2Proof.Machine

/-- The register check passes exactly the bytes 0 to 7. -/
theorem chkreg_ok {i : Byte} (h : i.toNat < 8) : chkreg i = .ok ⟨i.toNat, h⟩ := dif_pos h

theorem chkreg_error {i : Byte} (h : 8 ≤ i.toNat) : chkreg i = .error .invalidRegister :=
  dif_neg (Nat.not_lt.mpr h)

/-- The register check has these two outcomes. -/
theorem chkreg_cases (i : Byte) :
    (∃ h : i.toNat < 8, chkreg i = .ok ⟨i.toNat, h⟩) ∨ (8 ≤ i.toNat ∧ chkreg i = .error .invalidRegister) := by
  rcases Nat.lt_or_ge i.toNat 8 with h | h
  · exact .inl ⟨h, chkreg_ok h⟩
  · exact .inr ⟨h, chkreg_error h⟩

/-- The checked decrement has these two outcomes. -/
theorem spDec_cases (v : Byte) :
    (v = 0#8 ∧ spDec v = .error .outOfBounds) ∨
    (v ≠ 0#8 ∧ spDec v = .ok (v - 1#8) ∧ (v - 1#8).toNat + 1 = v.toNat) := by
  by_cases h : v = 0#8
  · exact .inl ⟨h, if_pos h⟩
  · exact .inr ⟨h, if_neg h, by bv_omega⟩

/-- The checked increment has these two outcomes. -/
theorem spInc_cases (v : Byte) :
    (v = 0xFF#8 ∧ spInc v = .error .outOfBounds) ∨
    (v ≠ 0xFF#8 ∧ spInc v = .ok (v + 1#8) ∧ (v + 1#8).toNat = v.toNat + 1) := by
  by_cases h : v = 0xFF#8
  · exact .inl ⟨h, if_pos h⟩
  · exact .inr ⟨h, if_neg h, by bv_omega⟩

@[simp] theorem finish_ok (s t : State) : finish s (.ok t) = .next t := rfl

@[simp] theorem finish_error (s : State) (c : ErrorCause) : finish s (.error c) = .next (takeFault c s) := rfl

/-- An instruction that ends in a next state either committed its result or took the fault it raised. -/
theorem finish_cases {s t : State} {r : Except ErrorCause State} (h : finish s r = .next t) :
    r = .ok t ∨ ∃ c, r = .error c ∧ t = takeFault c s := by
  cases r with
  | ok u => exact .inl (by cases h; rfl)
  | error c => exact .inr ⟨c, rfl, by cases h; rfl⟩

/-- Every instruction's end is a next state. -/
theorem finish_next (s : State) (r : Except ErrorCause State) : ∃ t, finish s r = .next t := by
  cases r with
  | ok t => exact ⟨t, rfl⟩
  | error c => exact ⟨takeFault c s, rfl⟩

theorem oneReg_ok {opA : Byte} (ha : opA.toNat < 8) (body : Fin 8 → Except ErrorCause State) :
    oneReg opA body = body ⟨opA.toNat, ha⟩ := by
  simp [oneReg, chkreg_ok ha]

theorem oneReg_error {opA : Byte} (ha : 8 ≤ opA.toNat) (body : Fin 8 → Except ErrorCause State) :
    oneReg opA body = .error .invalidRegister := by
  simp [oneReg, chkreg_error ha]

theorem twoRegs_ok {opA opB : Byte} (ha : opA.toNat < 8) (hb : opB.toNat < 8)
    (body : Fin 8 → Fin 8 → Except ErrorCause State) :
    twoRegs opA opB body = body ⟨opA.toNat, ha⟩ ⟨opB.toNat, hb⟩ := by
  simp [twoRegs, chkreg_ok ha, chkreg_ok hb]

theorem twoRegs_error {opA opB : Byte} (h : 8 ≤ opA.toNat ∨ 8 ≤ opB.toNat)
    (body : Fin 8 → Fin 8 → Except ErrorCause State) :
    twoRegs opA opB body = .error .invalidRegister := by
  rcases chkreg_cases opA with ⟨ha, ea⟩ | ⟨ha, ea⟩
  · have hb : 8 ≤ opB.toNat := by omega
    simp [twoRegs, ea, chkreg_error hb]
  · simp [twoRegs, ea]

/-- The common ALU rule on operands that name registers, when the function answers. -/
theorem aluBinary_ok {f : Byte → Byte → Except ErrorCause Byte} {opA opB : Byte} {s : State} {r : Byte}
    (ha : opA.toNat < 8) (hb : opB.toNat < 8)
    (hf : f (s.reg ⟨opA.toNat, ha⟩) (s.reg ⟨opB.toNat, hb⟩) = .ok r) :
    aluBinary f opA opB s = .next ((s.setReg ⟨opA.toNat, ha⟩ r).advancePc 3) := by
  simp [aluBinary, twoRegs_ok ha hb, hf]

/-- The common ALU rule when the function raises. -/
theorem aluBinary_raises {f : Byte → Byte → Except ErrorCause Byte} {opA opB : Byte} {s : State} {c : ErrorCause}
    (ha : opA.toNat < 8) (hb : opB.toNat < 8)
    (hf : f (s.reg ⟨opA.toNat, ha⟩) (s.reg ⟨opB.toNat, hb⟩) = .error c) :
    aluBinary f opA opB s = .next (takeFault c s) := by
  simp [aluBinary, twoRegs_ok ha hb, hf]

/-- The common ALU rule on an operand that names no register. -/
theorem aluBinary_invalid {f : Byte → Byte → Except ErrorCause Byte} {opA opB : Byte} {s : State}
    (h : 8 ≤ opA.toNat ∨ 8 ≤ opB.toNat) : aluBinary f opA opB s = .next (takeFault .invalidRegister s) := by
  simp [aluBinary, twoRegs_error h]

/-- The common jump rule on an operand that names a register. -/
theorem jumpIf_ok {taken : Bool} {opA : Byte} {s : State} (ha : opA.toNat < 8) :
    jumpIf taken opA s = .next (if taken then s.jumpTo (s.reg ⟨opA.toNat, ha⟩) else s.advancePc 2) := by
  simp [jumpIf, oneReg_ok ha]

/-- The common jump rule on an operand that names no register, taken or not. -/
theorem jumpIf_invalid {taken : Bool} {opA : Byte} {s : State} (ha : 8 ≤ opA.toNat) :
    jumpIf taken opA s = .next (takeFault .invalidRegister s) := by
  simp [jumpIf, oneReg_error ha]

/-- The pre-decrement of PUSH and CALL when register 7 is not 0. -/
theorem withPushedSp_ok {s : State} {sp1 : Byte} (h : spDec (s.reg Config.sp) = .ok sp1)
    (body : State → Byte → Except ErrorCause State) :
    withPushedSp s body = body (s.setReg Config.sp sp1) sp1 := by
  simp [withPushedSp, h]

/-- The pre-decrement of PUSH and CALL when register 7 is 0. -/
theorem withPushedSp_zero {s : State} (h : s.reg Config.sp = 0#8)
    (body : State → Byte → Except ErrorCause State) : withPushedSp s body = .error .outOfBounds := by
  simp [withPushedSp, spDec, h]

/-- ADD to SHR share one rule, with a function that never raises. -/
theorem exec_aluTotal (f : Byte → Byte → Byte) {opA opB : Byte} {s : State}
    (ha : opA.toNat < 8) (hb : opB.toNat < 8) :
    aluBinary (fun va vb => .ok (f va vb)) opA opB s =
      .next ((s.setReg ⟨opA.toNat, ha⟩ (f (s.reg ⟨opA.toNat, ha⟩) (s.reg ⟨opB.toNat, hb⟩))).advancePc 3) :=
  aluBinary_ok ha hb rfl

end Sys2Proof.Machine
end

