-- ==== Sys2Proof/Laws/Exec.lean ====
section
/-! SUPPORT. What each instruction's meaning answers, as one equation per outcome: the next state written out, or the
fault taken. Later proofs cite these and do not unfold a meaning. -/

namespace Sys2Proof.Machine

theorem namesRegister_iff {b : Byte} : namesRegister b = true ↔ b.toNat < 8 := by
  simp [namesRegister]

theorem namesRegister_eq_false_iff {b : Byte} : namesRegister b = false ↔ 8 ≤ b.toNat := by
  simp [namesRegister]

/-- The register an operand byte names is register 7 exactly when the byte is 7. -/
theorem operand_eq_sp {a : Byte} (ha : a.toNat < 8) : (⟨a.toNat, ha⟩ : Fin 8) = 7 ↔ a = 7#8 := by
  constructor
  · intro h
    have hv : a.toNat = 7 := congrArg Fin.val h
    exact BitVec.eq_of_toNat_eq hv
  · rintro rfl; rfl

/-! ## ALU -/

variable {opA opB v sp1 : Byte} {s : State}

theorem execAdd_ok (ha : opA.toNat < 8) (hb : opB.toNat < 8) :
    execAdd opA opB s =
      .next ((s.setReg ⟨opA.toNat, ha⟩ (aluAdd (s.reg ⟨opA.toNat, ha⟩) (s.reg ⟨opB.toNat, hb⟩))).advancePc 3) :=
  exec_aluTotal aluAdd ha hb

theorem execSub_ok (ha : opA.toNat < 8) (hb : opB.toNat < 8) :
    execSub opA opB s =
      .next ((s.setReg ⟨opA.toNat, ha⟩ (aluSub (s.reg ⟨opA.toNat, ha⟩) (s.reg ⟨opB.toNat, hb⟩))).advancePc 3) :=
  exec_aluTotal aluSub ha hb

theorem execMul_ok (ha : opA.toNat < 8) (hb : opB.toNat < 8) :
    execMul opA opB s =
      .next ((s.setReg ⟨opA.toNat, ha⟩ (aluMul (s.reg ⟨opA.toNat, ha⟩) (s.reg ⟨opB.toNat, hb⟩))).advancePc 3) :=
  exec_aluTotal aluMul ha hb

theorem execOr_ok (ha : opA.toNat < 8) (hb : opB.toNat < 8) :
    execOr opA opB s =
      .next ((s.setReg ⟨opA.toNat, ha⟩ (aluOr (s.reg ⟨opA.toNat, ha⟩) (s.reg ⟨opB.toNat, hb⟩))).advancePc 3) :=
  exec_aluTotal aluOr ha hb

theorem execXor_ok (ha : opA.toNat < 8) (hb : opB.toNat < 8) :
    execXor opA opB s =
      .next ((s.setReg ⟨opA.toNat, ha⟩ (aluXor (s.reg ⟨opA.toNat, ha⟩) (s.reg ⟨opB.toNat, hb⟩))).advancePc 3) :=
  exec_aluTotal aluXor ha hb

theorem execShl_ok (ha : opA.toNat < 8) (hb : opB.toNat < 8) :
    execShl opA opB s =
      .next ((s.setReg ⟨opA.toNat, ha⟩ (aluShl (s.reg ⟨opA.toNat, ha⟩) (s.reg ⟨opB.toNat, hb⟩))).advancePc 3) :=
  exec_aluTotal aluShl ha hb

theorem execShr_ok (ha : opA.toNat < 8) (hb : opB.toNat < 8) :
    execShr opA opB s =
      .next ((s.setReg ⟨opA.toNat, ha⟩ (aluShr (s.reg ⟨opA.toNat, ha⟩) (s.reg ⟨opB.toNat, hb⟩))).advancePc 3) :=
  exec_aluTotal aluShr ha hb

theorem execDiv_ok (ha : opA.toNat < 8) (hb : opB.toNat < 8) (hz : s.reg ⟨opB.toNat, hb⟩ ≠ 0#8) :
    execDiv opA opB s =
      .next ((s.setReg ⟨opA.toNat, ha⟩
        (BitVec.ofNat 8 ((s.reg ⟨opA.toNat, ha⟩).toNat / (s.reg ⟨opB.toNat, hb⟩).toNat))).advancePc 3) :=
  aluBinary_ok ha hb (if_neg hz)

theorem execDiv_zero (ha : opA.toNat < 8) (hb : opB.toNat < 8) (hz : s.reg ⟨opB.toNat, hb⟩ = 0#8) :
    execDiv opA opB s = .next (takeFault .divisionByZero s) :=
  aluBinary_raises ha hb (if_pos hz)

theorem execCmp_ok (ha : opA.toNat < 8) (hb : opB.toNat < 8) :
    execCmp opA opB s =
      .next ((s.setFlag (compareFlag (s.reg ⟨opA.toNat, ha⟩) (s.reg ⟨opB.toNat, hb⟩))).advancePc 3) := by
  simp only [execCmp, twoRegs_ok ha hb, finish_ok]

theorem execCmp_invalid (h : 8 ≤ opA.toNat ∨ 8 ≤ opB.toNat) :
    execCmp opA opB s = .next (takeFault .invalidRegister s) := by
  simp only [execCmp, twoRegs_error h, finish_error]

/-! An operand that names no register: one line per ALU instruction. -/

theorem execAdd_invalid (h : 8 ≤ opA.toNat ∨ 8 ≤ opB.toNat) :
    execAdd opA opB s = .next (takeFault .invalidRegister s) := aluBinary_invalid h

theorem execSub_invalid (h : 8 ≤ opA.toNat ∨ 8 ≤ opB.toNat) :
    execSub opA opB s = .next (takeFault .invalidRegister s) := aluBinary_invalid h

theorem execMul_invalid (h : 8 ≤ opA.toNat ∨ 8 ≤ opB.toNat) :
    execMul opA opB s = .next (takeFault .invalidRegister s) := aluBinary_invalid h

theorem execDiv_invalid (h : 8 ≤ opA.toNat ∨ 8 ≤ opB.toNat) :
    execDiv opA opB s = .next (takeFault .invalidRegister s) := aluBinary_invalid h

theorem execOr_invalid (h : 8 ≤ opA.toNat ∨ 8 ≤ opB.toNat) :
    execOr opA opB s = .next (takeFault .invalidRegister s) := aluBinary_invalid h

theorem execXor_invalid (h : 8 ≤ opA.toNat ∨ 8 ≤ opB.toNat) :
    execXor opA opB s = .next (takeFault .invalidRegister s) := aluBinary_invalid h

theorem execShl_invalid (h : 8 ≤ opA.toNat ∨ 8 ≤ opB.toNat) :
    execShl opA opB s = .next (takeFault .invalidRegister s) := aluBinary_invalid h

theorem execShr_invalid (h : 8 ≤ opA.toNat ∨ 8 ≤ opB.toNat) :
    execShr opA opB s = .next (takeFault .invalidRegister s) := aluBinary_invalid h

/-! ## Stack and subroutine -/

theorem execPush_ok (ha : opA.toNat < 8) (h : spDec (s.reg Config.sp) = .ok sp1) :
    execPush opA s =
      .next (((s.setReg Config.sp sp1).setCell sp1.toNat
        ((s.setReg Config.sp sp1).reg ⟨opA.toNat, ha⟩)).advancePc 2) := by
  simp only [execPush, oneReg_ok ha, withPushedSp_ok h, State.memWrite_byte, finish_ok]

theorem execPush_zero (ha : opA.toNat < 8) (h : s.reg Config.sp = 0#8) :
    execPush opA s = .next (takeFault .outOfBounds s) := by
  simp only [execPush, oneReg_ok ha, withPushedSp_zero h, finish_error]

theorem execPush_invalid (ha : 8 ≤ opA.toNat) : execPush opA s = .next (takeFault .invalidRegister s) := by
  simp only [execPush, oneReg_error ha, finish_error]

theorem execCall_ok (ha : opA.toNat < 8) (h : spDec (s.reg Config.sp) = .ok sp1) :
    execCall opA s =
      .next (((s.setReg Config.sp sp1).setCell sp1.toNat (returnAddress s)).jumpTo
        ((s.setReg Config.sp sp1).reg ⟨opA.toNat, ha⟩)) := by
  simp only [execCall, oneReg_ok ha, withPushedSp_ok h, State.memWrite_byte, finish_ok]

theorem execCall_zero (ha : opA.toNat < 8) (h : s.reg Config.sp = 0#8) :
    execCall opA s = .next (takeFault .outOfBounds s) := by
  simp only [execCall, oneReg_ok ha, withPushedSp_zero h, finish_error]

theorem execCall_invalid (ha : 8 ≤ opA.toNat) : execCall opA s = .next (takeFault .invalidRegister s) := by
  simp only [execCall, oneReg_error ha, finish_error]

/-- POP in terms of the byte popped and the checked increment of register 7 after the operand is written. -/
theorem execPop_ok (ha : opA.toNat < 8) (hv : s.mem.peek (s.reg Config.sp).toNat = v)
    (h : spInc ((s.setReg ⟨opA.toNat, ha⟩ v).reg Config.sp) = .ok sp1) :
    execPop opA s = .next (((s.setReg ⟨opA.toNat, ha⟩ v).setReg Config.sp sp1).advancePc 2) := by
  simp only [execPop, oneReg_ok ha, State.memRead_byte, hv, h, finish_ok]

theorem execPop_full (ha : opA.toNat < 8) (hv : s.mem.peek (s.reg Config.sp).toNat = v)
    (h : (s.setReg ⟨opA.toNat, ha⟩ v).reg Config.sp = 0xFF#8) :
    execPop opA s = .next (takeFault .outOfBounds s) := by
  have e : spInc ((s.setReg ⟨opA.toNat, ha⟩ v).reg Config.sp) = .error .outOfBounds := if_pos h
  simp only [execPop, oneReg_ok ha, State.memRead_byte, hv, e, finish_error]

theorem execPop_invalid (ha : 8 ≤ opA.toNat) : execPop opA s = .next (takeFault .invalidRegister s) := by
  simp only [execPop, oneReg_error ha, finish_error]

theorem execRet_ok (hv : s.mem.peek (s.reg Config.sp).toNat = v) (h : spInc (s.reg Config.sp) = .ok sp1) :
    execRet s = .next ((s.setReg Config.sp sp1).jumpTo v) := by
  simp only [execRet, State.memRead_byte, hv, h, finish_ok]

theorem execRet_full (h : s.reg Config.sp = 0xFF#8) : execRet s = .next (takeFault .outOfBounds s) := by
  have e : spInc (s.reg Config.sp) = .error .outOfBounds := if_pos h
  simp only [execRet, State.memRead_byte, e, finish_error]

/-! ## Load-immediate and print -/

theorem execLdi_ok (ha : opA.toNat < 8) :
    execLdi opA v s = .next ((s.setReg ⟨opA.toNat, ha⟩ v).advancePc 3) := by
  simp only [execLdi, oneReg_ok ha, finish_ok]

theorem execLdi_invalid (ha : 8 ≤ opA.toNat) : execLdi opA v s = .next (takeFault .invalidRegister s) := by
  simp only [execLdi, oneReg_error ha, finish_error]

theorem execPrn_ok (ha : opA.toNat < 8) :
    execPrn opA s = .next ((s.emit (s.reg ⟨opA.toNat, ha⟩)).advancePc 2) := by
  simp only [execPrn, oneReg_ok ha, finish_ok]

theorem execPrn_invalid (ha : 8 ≤ opA.toNat) : execPrn opA s = .next (takeFault .invalidRegister s) := by
  simp only [execPrn, oneReg_error ha, finish_error]

end Sys2Proof.Machine
end

