-- ==== Sys2Proof/Laws/Effect.lean ====
section
/-! SUPPORT. Everything an instruction can do, said once: later proofs about `exec` are a case analysis on
`exec_effect` and unfold no meaning. -/

namespace Sys2Proof.Machine

/-- The outcome of an ALU instruction on operands that name registers, when its function gives a byte. -/
def WritesFirst (f : Byte → Byte → Byte) (a b : Byte) (s : State) (answer : Host.Outcome State Fault Refusal) :
    Prop :=
  ∃ (ha : a.toNat < 8) (hb : b.toNat < 8),
    answer = .next ((s.setReg ⟨a.toNat, ha⟩ (f (s.reg ⟨a.toNat, ha⟩) (s.reg ⟨b.toNat, hb⟩))).advancePc 3)

/-- The stack pointer POP increments: the byte it popped when its operand is register 7 itself. -/
def poppedSp (a : Byte) (s : State) : Byte := if a = 7#8 then s.mem.peek (s.reg 7).toNat else s.reg 7

/-- What a well-formed instruction answers in `s`, outcome by outcome, each next state written out. The stack
pointers are given both as the checked update's result and as a number. -/
def Effect (s : State) : Instr → Prop
  | .hlt => exec .hlt s = .next { s with run := .halted, err := .none }
  | .ret =>
    (s.reg 7 = 0xFF#8 ∧ exec .ret s = .next (takeFault .outOfBounds s)) ∨
    ∃ sp1, spInc (s.reg 7) = .ok sp1 ∧ s.reg 7 ≠ 0xFF#8 ∧ sp1.toNat = (s.reg 7).toNat + 1 ∧
      exec .ret s = .next ((s.setReg 7 sp1).jumpTo (s.mem.peek (s.reg 7).toNat))
  | .push a => ∃ ha : a.toNat < 8,
    (s.reg 7 = 0#8 ∧ exec (.push a) s = .next (takeFault .outOfBounds s)) ∨
    ∃ sp1, s.reg 7 ≠ 0#8 ∧ spDec (s.reg 7) = .ok sp1 ∧ sp1.toNat + 1 = (s.reg 7).toNat ∧
      exec (.push a) s =
        .next (((s.setReg 7 sp1).setCell sp1.toNat ((s.setReg 7 sp1).reg ⟨a.toNat, ha⟩)).advancePc 2)
  | .call a => ∃ ha : a.toNat < 8,
    (s.reg 7 = 0#8 ∧ exec (.call a) s = .next (takeFault .outOfBounds s)) ∨
    ∃ sp1, s.reg 7 ≠ 0#8 ∧ spDec (s.reg 7) = .ok sp1 ∧ sp1.toNat + 1 = (s.reg 7).toNat ∧
      exec (.call a) s =
        .next (((s.setReg 7 sp1).setCell sp1.toNat (returnAddress s)).jumpTo ((s.setReg 7 sp1).reg ⟨a.toNat, ha⟩))
  | .pop a => ∃ ha : a.toNat < 8,
    (poppedSp a s = 0xFF#8 ∧ exec (.pop a) s = .next (takeFault .outOfBounds s)) ∨
    ∃ sp1, poppedSp a s ≠ 0xFF#8 ∧ spInc (poppedSp a s) = .ok sp1 ∧ sp1.toNat = (poppedSp a s).toNat + 1 ∧
      exec (.pop a) s =
        .next (((s.setReg ⟨a.toNat, ha⟩ (s.mem.peek (s.reg 7).toNat)).setReg 7 sp1).advancePc 2)
  | .prn a => ∃ ha : a.toNat < 8, exec (.prn a) s = .next ((s.emit (s.reg ⟨a.toNat, ha⟩)).advancePc 2)
  | .jmp a => ∃ ha : a.toNat < 8, exec (.jmp a) s = .next (s.jumpTo (s.reg ⟨a.toNat, ha⟩))
  | .jeq a => ∃ ha : a.toNat < 8,
    (s.fl = .eq ∧ exec (.jeq a) s = .next (s.jumpTo (s.reg ⟨a.toNat, ha⟩))) ∨
    (s.fl ≠ .eq ∧ exec (.jeq a) s = .next (s.advancePc 2))
  | .jne a => ∃ ha : a.toNat < 8,
    (s.fl ≠ .eq ∧ exec (.jne a) s = .next (s.jumpTo (s.reg ⟨a.toNat, ha⟩))) ∨
    (s.fl = .eq ∧ exec (.jne a) s = .next (s.advancePc 2))
  | .ldi a v => ∃ ha : a.toNat < 8, exec (.ldi a v) s = .next ((s.setReg ⟨a.toNat, ha⟩ v).advancePc 3)
  | .cmp a b => ∃ (ha : a.toNat < 8) (hb : b.toNat < 8),
    exec (.cmp a b) s =
      .next ((s.setFlag (compareFlag (s.reg ⟨a.toNat, ha⟩) (s.reg ⟨b.toNat, hb⟩))).advancePc 3)
  | .div a b => ∃ (ha : a.toNat < 8) (hb : b.toNat < 8),
    (s.reg ⟨b.toNat, hb⟩ = 0#8 ∧ exec (.div a b) s = .next (takeFault .divisionByZero s)) ∨
    (s.reg ⟨b.toNat, hb⟩ ≠ 0#8 ∧
      exec (.div a b) s = .next ((s.setReg ⟨a.toNat, ha⟩
        (BitVec.ofNat 8 ((s.reg ⟨a.toNat, ha⟩).toNat / (s.reg ⟨b.toNat, hb⟩).toNat))).advancePc 3))
  | .add a b => WritesFirst aluAdd a b s (exec (.add a b) s)
  | .sub a b => WritesFirst aluSub a b s (exec (.sub a b) s)
  | .mul a b => WritesFirst aluMul a b s (exec (.mul a b) s)
  | .or a b => WritesFirst aluOr a b s (exec (.or a b) s)
  | .xor a b => WritesFirst aluXor a b s (exec (.xor a b) s)
  | .shl a b => WritesFirst aluShl a b s (exec (.shl a b) s)
  | .shr a b => WritesFirst aluShr a b s (exec (.shr a b) s)

theorem wf_one {a : Byte} : [a].all namesRegister = true ↔ a.toNat < 8 := by simp [namesRegister]
theorem wf_two {a b : Byte} : [a, b].all namesRegister = true ↔ a.toNat < 8 ∧ b.toNat < 8 := by simp [namesRegister]

/-- Every answer of every instruction: an operand that names no register is `InvalidRegister`; otherwise one of the
outcomes of `Effect`. -/
theorem exec_effect (i : Instr) (s : State) :
  (i.wf = false ∧ exec i s = .next (takeFault .invalidRegister s)) ∨ (i.wf = true ∧ Effect s i) := by
  cases i with
  | hlt => exact .inr ⟨rfl, rfl⟩
  | ret =>
    right; refine ⟨rfl, ?_⟩
    rcases spInc_cases (s.reg 7) with ⟨h,e⟩ | ⟨h,e,n⟩
    · exact .inl ⟨h, execRet_full h⟩
    · exact .inr ⟨_, e, h, n, execRet_ok rfl e⟩
  | push a =>
    by_cases ha : a.toNat < 8
    · right; refine ⟨wf_one.mpr ha, ha, ?_⟩
      rcases spDec_cases (s.reg 7) with ⟨h,e⟩ | ⟨h,e,n⟩
      · exact .inl ⟨h, execPush_zero ha h⟩
      · exact .inr ⟨_, h, e, n, execPush_ok ha e⟩
    · left; exact ⟨eq_false_of_ne_true (fun e => ha (wf_one.mp e)), execPush_invalid (by omega)⟩
  | call a =>
    by_cases ha : a.toNat < 8
    · right; refine ⟨wf_one.mpr ha, ha, ?_⟩
      rcases spDec_cases (s.reg 7) with ⟨h,e⟩ | ⟨h,e,n⟩
      · exact .inl ⟨h, execCall_zero ha h⟩
      · exact .inr ⟨_, h, e, n, execCall_ok ha e⟩
    · left; exact ⟨eq_false_of_ne_true (fun e => ha (wf_one.mp e)), execCall_invalid (by omega)⟩
  | pop a =>
    by_cases ha : a.toNat < 8
    · right; refine ⟨wf_one.mpr ha, ha, ?_⟩
      have e7 : (s.setReg ⟨a.toNat, ha⟩ (s.mem.peek (s.reg 7).toNat)).reg Config.sp = poppedSp a s := by
        rw [State.reg_setReg, poppedSp]
        by_cases h7 : a = 7#8
        · subst h7; rfl
        · rw [if_neg h7, if_neg (fun e => h7 ((operand_eq_sp ha).mp e.symm))]
      rcases spInc_cases (poppedSp a s) with ⟨h, e⟩ | ⟨h, e, n⟩
      · exact .inl ⟨h, execPop_full ha rfl (e7.trans h)⟩
      · exact .inr ⟨_, h, e, n, execPop_ok ha rfl ((congrArg spInc e7).trans e)⟩
    · left; exact ⟨eq_false_of_ne_true (fun e => ha (wf_one.mp e)), execPop_invalid (by omega)⟩
  | prn a =>
    by_cases ha : a.toNat < 8
    · right; exact ⟨wf_one.mpr ha, ha, execPrn_ok ha⟩
    · left; exact ⟨eq_false_of_ne_true (fun e => ha (wf_one.mp e)), execPrn_invalid (by omega)⟩
  | ldi a v =>
    by_cases ha : a.toNat < 8
    · right; exact ⟨wf_one.mpr ha, ha, execLdi_ok ha⟩
    · left; exact ⟨eq_false_of_ne_true (fun e => ha (wf_one.mp e)), execLdi_invalid (by omega)⟩
  | jmp a =>
    by_cases ha : a.toNat < 8
    · right; exact ⟨wf_one.mpr ha, ha, jumpIf_ok ha⟩
    · left; exact ⟨eq_false_of_ne_true (fun e => ha (wf_one.mp e)), jumpIf_invalid (by omega)⟩
  | jeq a =>
    by_cases ha : a.toNat < 8
    · right; refine ⟨wf_one.mpr ha, ha, ?_⟩
      by_cases hf : s.fl = .eq
      · exact .inl ⟨hf, (jumpIf_ok ha).trans (by simp [Flag.isEq, hf])⟩
      · exact .inr ⟨hf, (jumpIf_ok ha).trans (by simp [Flag.isEq, hf])⟩
    · left; exact ⟨eq_false_of_ne_true (fun e => ha (wf_one.mp e)), jumpIf_invalid (by omega)⟩
  | jne a =>
    by_cases ha : a.toNat < 8
    · right; refine ⟨wf_one.mpr ha, ha, ?_⟩
      by_cases hf : s.fl = .eq
      · exact .inr ⟨hf, (jumpIf_ok ha).trans (by simp [Flag.isEq, hf])⟩
      · exact .inl ⟨hf, (jumpIf_ok ha).trans (by simp [Flag.isEq, hf])⟩
    · left; exact ⟨eq_false_of_ne_true (fun e => ha (wf_one.mp e)), jumpIf_invalid (by omega)⟩
  | cmp a b =>
    by_cases hh : a.toNat < 8 ∧ b.toNat < 8
    · right; exact ⟨wf_two.mpr hh, hh.1, hh.2, execCmp_ok hh.1 hh.2⟩
    · left; exact ⟨eq_false_of_ne_true (fun e => hh (wf_two.mp e)), execCmp_invalid (by omega)⟩
  | div a b =>
    by_cases hh : a.toNat < 8 ∧ b.toNat < 8
    · right; refine ⟨wf_two.mpr hh, hh.1, hh.2, ?_⟩
      by_cases hz : s.reg ⟨b.toNat, hh.2⟩ = 0#8
      · exact .inl ⟨hz, execDiv_zero hh.1 hh.2 hz⟩
      · exact .inr ⟨hz, execDiv_ok hh.1 hh.2 hz⟩
    · left; exact ⟨eq_false_of_ne_true (fun e => hh (wf_two.mp e)), aluBinary_invalid (by omega)⟩
  | add a b =>
    by_cases hh : a.toNat < 8 ∧ b.toNat < 8
    · right; exact ⟨wf_two.mpr hh, hh.1, hh.2, execAdd_ok hh.1 hh.2⟩
    · left; exact ⟨eq_false_of_ne_true (fun e => hh (wf_two.mp e)), execAdd_invalid (by omega)⟩
  | sub a b =>
    by_cases hh : a.toNat < 8 ∧ b.toNat < 8
    · right; exact ⟨wf_two.mpr hh, hh.1, hh.2, execSub_ok hh.1 hh.2⟩
    · left; exact ⟨eq_false_of_ne_true (fun e => hh (wf_two.mp e)), execSub_invalid (by omega)⟩
  | mul a b =>
    by_cases hh : a.toNat < 8 ∧ b.toNat < 8
    · right; exact ⟨wf_two.mpr hh, hh.1, hh.2, execMul_ok hh.1 hh.2⟩
    · left; exact ⟨eq_false_of_ne_true (fun e => hh (wf_two.mp e)), execMul_invalid (by omega)⟩
  | or a b =>
    by_cases hh : a.toNat < 8 ∧ b.toNat < 8
    · right; exact ⟨wf_two.mpr hh, hh.1, hh.2, execOr_ok hh.1 hh.2⟩
    · left; exact ⟨eq_false_of_ne_true (fun e => hh (wf_two.mp e)), execOr_invalid (by omega)⟩
  | xor a b =>
    by_cases hh : a.toNat < 8 ∧ b.toNat < 8
    · right; exact ⟨wf_two.mpr hh, hh.1, hh.2, execXor_ok hh.1 hh.2⟩
    · left; exact ⟨eq_false_of_ne_true (fun e => hh (wf_two.mp e)), execXor_invalid (by omega)⟩
  | shl a b =>
    by_cases hh : a.toNat < 8 ∧ b.toNat < 8
    · right; exact ⟨wf_two.mpr hh, hh.1, hh.2, execShl_ok hh.1 hh.2⟩
    · left; exact ⟨eq_false_of_ne_true (fun e => hh (wf_two.mp e)), execShl_invalid (by omega)⟩
  | shr a b =>
    by_cases hh : a.toNat < 8 ∧ b.toNat < 8
    · right; exact ⟨wf_two.mpr hh, hh.1, hh.2, execShr_ok hh.1 hh.2⟩
    · left; exact ⟨eq_false_of_ne_true (fun e => hh (wf_two.mp e)), execShr_invalid (by omega)⟩

end Sys2Proof.Machine
end

