-- ==== Sys2Proof/Laws/PerInstr.lean ====
section
/-! SUPPORT. Families of statements about every instruction as syntax, one lemma per constructor. -/

namespace Sys2Proof.Laws

/-- The length of an instruction is one more than the number in the top two bits of its opcode byte
(30_encoding.md R87). -/
def LengthFromTopBits.Statement (i : Instr) : Prop :=
  (encode i).length = 1 + ((encode i).headD 0#8).toNat / 64

theorem LengthFromTopBits.hlt : LengthFromTopBits.Statement .hlt := by
  simp [LengthFromTopBits.Statement, encode, Opcode.byte]
theorem LengthFromTopBits.ret : LengthFromTopBits.Statement .ret := by
  simp [LengthFromTopBits.Statement, encode, Opcode.byte]
theorem LengthFromTopBits.push (a : Byte) : LengthFromTopBits.Statement (.push a) := by
  simp [LengthFromTopBits.Statement, encode, Opcode.byte]
theorem LengthFromTopBits.pop (a : Byte) : LengthFromTopBits.Statement (.pop a) := by
  simp [LengthFromTopBits.Statement, encode, Opcode.byte]
theorem LengthFromTopBits.prn (a : Byte) : LengthFromTopBits.Statement (.prn a) := by
  simp [LengthFromTopBits.Statement, encode, Opcode.byte]
theorem LengthFromTopBits.call (a : Byte) : LengthFromTopBits.Statement (.call a) := by
  simp [LengthFromTopBits.Statement, encode, Opcode.byte]
theorem LengthFromTopBits.jmp (a : Byte) : LengthFromTopBits.Statement (.jmp a) := by
  simp [LengthFromTopBits.Statement, encode, Opcode.byte]
theorem LengthFromTopBits.jeq (a : Byte) : LengthFromTopBits.Statement (.jeq a) := by
  simp [LengthFromTopBits.Statement, encode, Opcode.byte]
theorem LengthFromTopBits.jne (a : Byte) : LengthFromTopBits.Statement (.jne a) := by
  simp [LengthFromTopBits.Statement, encode, Opcode.byte]
theorem LengthFromTopBits.ldi (a v : Byte) : LengthFromTopBits.Statement (.ldi a v) := by
  simp [LengthFromTopBits.Statement, encode, Opcode.byte]
theorem LengthFromTopBits.add (a b : Byte) : LengthFromTopBits.Statement (.add a b) := by
  simp [LengthFromTopBits.Statement, encode, Opcode.byte]
theorem LengthFromTopBits.sub (a b : Byte) : LengthFromTopBits.Statement (.sub a b) := by
  simp [LengthFromTopBits.Statement, encode, Opcode.byte]
theorem LengthFromTopBits.mul (a b : Byte) : LengthFromTopBits.Statement (.mul a b) := by
  simp [LengthFromTopBits.Statement, encode, Opcode.byte]
theorem LengthFromTopBits.div (a b : Byte) : LengthFromTopBits.Statement (.div a b) := by
  simp [LengthFromTopBits.Statement, encode, Opcode.byte]
theorem LengthFromTopBits.cmp (a b : Byte) : LengthFromTopBits.Statement (.cmp a b) := by
  simp [LengthFromTopBits.Statement, encode, Opcode.byte]
theorem LengthFromTopBits.or (a b : Byte) : LengthFromTopBits.Statement (.or a b) := by
  simp [LengthFromTopBits.Statement, encode, Opcode.byte]
theorem LengthFromTopBits.xor (a b : Byte) : LengthFromTopBits.Statement (.xor a b) := by
  simp [LengthFromTopBits.Statement, encode, Opcode.byte]
theorem LengthFromTopBits.shl (a b : Byte) : LengthFromTopBits.Statement (.shl a b) := by
  simp [LengthFromTopBits.Statement, encode, Opcode.byte]
theorem LengthFromTopBits.shr (a b : Byte) : LengthFromTopBits.Statement (.shr a b) := by
  simp [LengthFromTopBits.Statement, encode, Opcode.byte]

end Sys2Proof.Laws
end

