-- ==== Sys2Proof/Laws/Step.lean ====
section
/-! SUPPORT. What one step can do. -/

namespace Sys2Proof.Machine

/-- A step answers a next state in one of two ways: a fault of fetch or decode, or the decoded instruction's own
rule. -/
theorem step_cases {s t : State} (h : step s = .next t) :
    s.run = .running ∧
      ((∃ c, fetchInstr s = .error c ∧ t = takeFault c s) ∨ (∃ i, fetchInstr s = .ok i ∧ exec i s = .next t)) := by
  unfold step at h
  split at h
  · cases h
  · rename_i hr
    split at h
    · rename_i c hc; exact ⟨hr, .inl ⟨c, hc, by cases h; rfl⟩⟩
    · rename_i i hi; exact ⟨hr, .inr ⟨i, hi, h⟩⟩

theorem step_of_fetch_error {s : State} {c : ErrorCause} (hr : s.run = .running) (h : fetchInstr s = .error c) :
    step s = .next (takeFault c s) := by
  simp [step, hr, h]

theorem step_of_fetchInstr {s : State} {i : Instr} (hr : s.run = .running) (h : fetchInstr s = .ok i) :
    step s = exec i s := by
  simp [step, hr, h]

/-- Below 254 the fetch reads its three cells. -/
theorem fetchBytes_ok {s : State} (h : s.pc.toNat ≤ 253) :
    fetchBytes s =
      .ok (s.mem.peek s.pc.toNat, s.mem.peek (s.pc.toNat + 1), s.mem.peek (s.pc.toNat + 2)) := by
  have h0 : inBounds (s.pc.toNat : Int) := by simp only [inBounds]; omega
  have h1 : inBounds ((s.pc.toNat : Int) + 1) := by simp only [inBounds]; omega
  have h2 : inBounds ((s.pc.toNat : Int) + 2) := by simp only [inBounds]; omega
  have n1 : ((s.pc.toNat : Int) + 1).toNat = s.pc.toNat + 1 := by omega
  have n2 : ((s.pc.toNat : Int) + 2).toNat = s.pc.toNat + 2 := by omega
  unfold fetchBytes
  rw [s.memRead_of_inBounds h0, s.memRead_of_inBounds h1, s.memRead_of_inBounds h2, n1, n2, Int.toNat_natCast]

/-- From 254 on the fetch raises `OutOfBounds`. -/
theorem fetchBytes_error {s : State} (h : 253 < s.pc.toNat) : fetchBytes s = .error .outOfBounds := by
  have h2 : ¬ inBounds ((s.pc.toNat : Int) + 2) := by simp only [inBounds]; omega
  unfold fetchBytes
  by_cases h0 : inBounds (s.pc.toNat : Int)
  · by_cases h1 : inBounds ((s.pc.toNat : Int) + 1)
    · simp only [s.memRead_of_inBounds h0, s.memRead_of_inBounds h1, s.memRead_of_not_inBounds h2]
    · simp only [s.memRead_of_inBounds h0, s.memRead_of_not_inBounds h1]
  · simp only [s.memRead_of_not_inBounds h0]

/-- Fetched bytes that decode give the decoded instruction. -/
theorem fetchInstr_of_decoded {s : State} {op opA opB : Byte} {i : Instr} (h : fetchBytes s = .ok (op, opA, opB))
    (hd : decode op opA opB = .ok i) : fetchInstr s = .ok i := by
  simp only [fetchInstr, h, hd]

/-- Fetched bytes that do not decode raise `UnsupportedInstruction`. -/
theorem fetchInstr_of_undecoded {s : State} {op opA opB : Byte} {r : DecodeReject}
    (h : fetchBytes s = .ok (op, opA, opB)) (hd : decode op opA opB = .error r) :
    fetchInstr s = .error .unsupportedInstruction := by
  simp only [fetchInstr, h, hd]

/-- Fetch and decode together have these outcomes. -/
theorem fetchInstr_cases (s : State) :
    (253 < s.pc.toNat ∧ fetchInstr s = .error .outOfBounds) ∨
    (s.pc.toNat ≤ 253 ∧ fetchInstr s = .error .unsupportedInstruction) ∨
    (s.pc.toNat ≤ 253 ∧ ∃ i, fetchInstr s = .ok i) := by
  by_cases h : 253 < s.pc.toNat
  · have e : fetchInstr s = .error .outOfBounds := by
      unfold fetchInstr
      rw [fetchBytes_error h]
    exact .inl (And.intro h e)
  · have h : s.pc.toNat ≤ 253 := Nat.le_of_not_lt h
    refine .inr ?_
    unfold fetchInstr
    rw [fetchBytes_ok h]
    dsimp only
    cases decode (s.mem.peek s.pc.toNat) (s.mem.peek (s.pc.toNat + 1)) (s.mem.peek (s.pc.toNat + 2)) with
    | error r => exact .inl ⟨h, rfl⟩
    | ok i => exact .inr ⟨h, i, rfl⟩

end Sys2Proof.Machine
end

