-- ==== Sys2Proof/Tests/Slice0.lean ====
section
/-! SUPPORT. Tests and witnesses. Expected values come from the tables of 95_test_vectors.md (the vector's name is in
each comment) and the encodings from 30_encoding.md R84; none is the model's own answer. -/

namespace Sys2Proof.Tests

open Sys2Proof.Machine

/-- The reset state with some registers and some cells set. -/
def start (regs : List (Fin 8 × Byte)) (cells : List (Nat × Byte)) : State :=
  cells.foldl (fun s c => s.setCell c.1 c.2) (regs.foldl (fun s r => s.setReg r.1 r.2) State.reset)

/-- Whether an outcome is a next state that meets `p`. -/
def gives (o : Host.Outcome State Fault Refusal) (p : State → Bool) : Bool :=
  match o with
  | .next t => p t
  | _ => false

/-- Whether a state is the fault `c` of the state `s`: nothing else changed. -/
def faulted (c : ErrorCause) (s t : State) : Bool := t == { s with run := .halted, err := c }

/-! ## WellFormed refuses each ill-formed operand (30_encoding.md R82) -/

theorem test_wf_refuses_one_register_form : (Instr.push 8#8).wf = false := by decide
theorem test_wf_refuses_ldi_register : (Instr.ldi 8#8 0#8).wf = false := by decide
theorem test_wf_refuses_first_of_two : (Instr.add 8#8 0#8).wf = false := by decide
theorem test_wf_refuses_second_of_two : (Instr.add 0#8 128#8).wf = false := by decide
theorem test_wf_refuses_jump_register : (Instr.jne 255#8).wf = false := by decide
theorem test_wf_accepts_any_immediate : (Instr.ldi 7#8 255#8).wf = true := by decide

/-! ## Decoding, one word per constructor, bit by bit from 30_encoding.md R84: the opcode byte is the low byte -/

theorem test_decode_hlt : decodeTableWord 8 0b00000001 = some .hlt := by decide
theorem test_decode_ret : decodeTableWord 8 0b00010001 = some .ret := by decide
theorem test_decode_push : decodeTableWord 16 0b00000011_01000101 = some (.push 3#8) := by decide
theorem test_decode_pop : decodeTableWord 16 0b00000110_01000110 = some (.pop 6#8) := by decide
theorem test_decode_prn : decodeTableWord 16 0b00000001_01000111 = some (.prn 1#8) := by decide
theorem test_decode_call : decodeTableWord 16 0b00000111_01010000 = some (.call 7#8) := by decide
theorem test_decode_jmp : decodeTableWord 16 0b00000010_01010100 = some (.jmp 2#8) := by decide
theorem test_decode_jeq : decodeTableWord 16 0b10000001_01010101 = some (.jeq 129#8) := by decide
theorem test_decode_jne : decodeTableWord 16 0b00000100_01010110 = some (.jne 4#8) := by decide
theorem test_decode_ldi : decodeTableWord 24 0b11111110_00000101_10000010 = some (.ldi 5#8 254#8) := by decide
theorem test_decode_add : decodeTableWord 24 0b00000010_00000001_10100000 = some (.add 1#8 2#8) := by decide
theorem test_decode_sub : decodeTableWord 24 0b00000010_00000001_10100001 = some (.sub 1#8 2#8) := by decide
theorem test_decode_mul : decodeTableWord 24 0b00000010_00000001_10100010 = some (.mul 1#8 2#8) := by decide
theorem test_decode_div : decodeTableWord 24 0b00000010_00000001_10100011 = some (.div 1#8 2#8) := by decide
theorem test_decode_cmp : decodeTableWord 24 0b00000010_00000001_10100111 = some (.cmp 1#8 2#8) := by decide
theorem test_decode_or : decodeTableWord 24 0b00000010_00000001_10101010 = some (.or 1#8 2#8) := by decide
theorem test_decode_xor : decodeTableWord 24 0b00000010_00000001_10101011 = some (.xor 1#8 2#8) := by decide
theorem test_decode_shl : decodeTableWord 24 0b00000010_00000001_10101100 = some (.shl 1#8 2#8) := by decide
theorem test_decode_shr : decodeTableWord 24 0b00000010_00000001_10101101 = some (.shr 1#8 2#8) := by decide

/-- L10: the bytes after a one-byte instruction are ignored (30_encoding.md R88). -/
theorem test_decode_ignores_unused_bytes : decode 0x01#8 0xFF#8 0xFF#8 = .ok .hlt := by rfl

/-- Rejected by name: an opcode byte that is not in the table (F7, F8, F9), a list that ends inside an instruction. -/
theorem test_decode_rejects_by_name :
    decode 0x00#8 0#8 0#8 = .error (.unknownOpcode 0x00#8) ∧ decode 0xA8#8 0#8 0#8 = .error (.unknownOpcode 0xA8#8) ∧
    decode 0xC1#8 0#8 0#8 = .error (.unknownOpcode 0xC1#8) ∧ decodeBytes [0x82#8, 0#8] = .error (.truncated 0x82#8) ∧
    decodeBytes [] = .error .noBytes := ⟨rfl, rfl, rfl, rfl, rfl⟩

/-! ## One step each, from 95_test_vectors.md sections 2.1 to 2.5 -/

/-- Row 0xFF/0x01. -/
theorem test_add_wraps : gives (step (start [(0, 0xFF), (1, 0x01)] [(0, 0xA0), (2, 0x01)]))
    (fun t => t.reg 0 == 0x00 && t.reg 1 == 0x01 && t.pc == 3 && t.fl == .unset) = true := by decide
/-- Same register twice, 0x81. -/
theorem test_add_same_register : gives (step (start [(0, 0x81)] [(0, 0xA0)]))
    (fun t => t.reg 0 == 0x02 && t.pc == 3) = true := by decide
/-- Row 0x05/0x09. -/
theorem test_sub_wraps : gives (step (start [(0, 0x05), (1, 0x09)] [(0, 0xA1), (2, 0x01)]))
    (fun t => t.reg 0 == 0xFC && t.reg 1 == 0x09 && t.pc == 3) = true := by decide
/-- Register 7 as an ALU operand: 0 - 1 wraps with no fault. -/
theorem test_sub_stack_pointer_wraps : gives (step (start [(7, 0), (0, 1)] [(0, 0xA1), (1, 0x07)]))
    (fun t => t.reg 7 == 0xFF && t.run == .running) = true := by decide
/-- Row 0x14/0x0D. -/
theorem test_mul_keeps_low_byte : gives (step (start [(0, 0x14), (1, 0x0D)] [(0, 0xA2), (2, 0x01)]))
    (fun t => t.reg 0 == 0x04 && t.pc == 3) = true := by decide
/-- Row 0x80/0x07. -/
theorem test_div_is_unsigned : gives (step (start [(0, 0x80), (1, 0x07)] [(0, 0xA3), (2, 0x01)]))
    (fun t => t.reg 0 == 0x12 && t.pc == 3) = true := by decide
/-- Row 0x64/0x00, and bytes `A3 09 01`: the register check comes first. -/
theorem test_div_by_zero_after_register_check :
    gives (step (start [(0, 0x64)] [(0, 0xA3), (2, 0x01)]))
      (faulted .divisionByZero (start [(0, 0x64)] [(0, 0xA3), (2, 0x01)])) = true ∧
    gives (step (start [] [(0, 0xA3), (1, 0x09), (2, 0x01)]))
      (faulted .invalidRegister (start [] [(0, 0xA3), (1, 0x09), (2, 0x01)])) = true := by decide
/-- Row 0x0C/0x0A. -/
theorem test_or : gives (step (start [(0, 0x0C), (1, 0x0A)] [(0, 0xAA), (2, 0x01)]))
    (fun t => t.reg 0 == 0x0E && t.pc == 3) = true := by decide
/-- Row 0x0C/0x0A. -/
theorem test_xor : gives (step (start [(0, 0x0C), (1, 0x0A)] [(0, 0xAB), (2, 0x01)]))
    (fun t => t.reg 0 == 0x06 && t.pc == 3) = true := by decide
/-- Row 0x81/0x09: the amount is taken modulo 8. -/
theorem test_shl_amount_modulo_8 : gives (step (start [(0, 0x81), (1, 0x09)] [(0, 0xAC), (2, 0x01)]))
    (fun t => t.reg 0 == 0x02 && t.pc == 3) = true := by decide
/-- Row 0x81/0x08: an amount of 8 shifts by nothing. -/
theorem test_shl_by_8 : gives (step (start [(0, 0x81), (1, 0x08)] [(0, 0xAC), (2, 0x01)]))
    (fun t => t.reg 0 == 0x81) = true := by decide
/-- Row 0x80/0x07: logical. -/
theorem test_shr_is_logical : gives (step (start [(0, 0x80), (1, 0x07)] [(0, 0xAD), (2, 0x01)]))
    (fun t => t.reg 0 == 0x01 && t.pc == 3) = true := by decide
/-- Row 0x81/0x09. -/
theorem test_shr_amount_modulo_8 : gives (step (start [(0, 0x81), (1, 0x09)] [(0, 0xAD), (2, 0x01)]))
    (fun t => t.reg 0 == 0x40) = true := by decide
/-- Row 0x7F/0x80. -/
theorem test_cmp_is_unsigned_less : gives (step (start [(0, 0x7F), (1, 0x80)] [(0, 0xA7), (2, 0x01)]))
    (fun t => t.fl == .lt && t.reg 0 == 0x7F && t.pc == 3) = true := by decide
/-- Row 0x80/0x7F. -/
theorem test_cmp_is_unsigned_greater : gives (step (start [(0, 0x80), (1, 0x7F)] [(0, 0xA7), (2, 0x01)]))
    (fun t => t.fl == .gt) = true := by decide
/-- K4: PUSH R7 stores the decremented value. -/
theorem test_push_stack_pointer : gives (step (start [] [(0, 0x45), (1, 0x07)]))
    (fun t => t.reg 7 == 0xF3 && t.mem.peek 0xF3 == 0xF3 && t.pc == 2) = true := by decide
/-- K8: the PUSH overwrites its own opcode byte. -/
theorem test_push_to_cell_0 : gives (step (start [(7, 0x01), (0, 0x77)] [(0, 0x45)]))
    (fun t => t.reg 7 == 0x00 && t.mem.peek 0 == 0x77 && t.pc == 2) = true := by decide
/-- K5: POP R7 ends with the popped byte plus 1. -/
theorem test_pop_stack_pointer : gives (step (start [] [(0, 0x46), (1, 0x07), (0xF4, 0x20)]))
    (fun t => t.reg 7 == 0x21 && t.pc == 2) = true := by decide
/-- K9: the increment of register 7 from 255. -/
theorem test_pop_at_255 : gives (step (start [(7, 0xFF)] [(0, 0x46), (0xFF, 0x33)]))
    (faulted .outOfBounds (start [(7, 0xFF)] [(0, 0x46), (0xFF, 0x33)])) = true := by decide
/-- K12: CALL R7 jumps to the decremented stack pointer. -/
theorem test_call_stack_pointer : gives (step (start [] [(0, 0x50), (1, 0x07)]))
    (fun t => t.reg 7 == 0xF3 && t.mem.peek 0xF3 == 0x02 && t.pc == 0xF3) = true := by decide
/-- K13: CALL at the bottom of memory. -/
theorem test_call_at_0 : gives (step (start [(7, 0), (1, 0x40)] [(0, 0x50), (1, 0x01)]))
    (faulted .outOfBounds (start [(7, 0), (1, 0x40)] [(0, 0x50), (1, 0x01)])) = true := by decide
/-- K14. -/
theorem test_ret : gives (step (start [(7, 0xF3)] [(0, 0x11), (0xF3, 0x08)]))
    (fun t => t.reg 7 == 0xF4 && t.pc == 8 && t.mem.peek 0xF3 == 0x08) = true := by decide
/-- K16. -/
theorem test_ret_at_255 : gives (step (start [(7, 0xFF)] [(0, 0x11)]))
    (faulted .outOfBounds (start [(7, 0xFF)] [(0, 0x11)])) = true := by decide

/-- J14. -/
theorem test_jmp : gives (step (start [(3, 0xFF)] [(0, 0x54), (1, 0x03)]))
    (fun t => t.pc == 0xFF && t.reg 3 == 0xFF) = true := by decide
/-- J2. -/
theorem test_jeq_taken : gives (step ((start [(3, 12)] [(0, 0x55), (1, 0x03)]).setFlag .eq))
    (fun t => t.pc == 12) = true := by decide
/-- J5. -/
theorem test_jeq_unset_not_taken : gives (step (start [(3, 12)] [(0, 0x55), (1, 0x03)]))
    (fun t => t.pc == 2) = true := by decide
/-- J9. -/
theorem test_jne_unset_taken : gives (step (start [(3, 12)] [(0, 0x56), (1, 0x03)]))
    (fun t => t.pc == 12) = true := by decide
/-- J11: checked although the jump would not be taken. -/
theorem test_jne_checks_operand : gives (step ((start [] [(0, 0x56), (1, 0xFF)]).setFlag .eq))
    (faulted .invalidRegister ((start [] [(0, 0x56), (1, 0xFF)]).setFlag .eq)) = true := by decide

/-- L3. -/
theorem test_ldi : gives (step (start [] [(0, 0x82), (1, 0x05), (2, 0xFF)]))
    (fun t => t.reg 5 == 0xFF && t.pc == 3) = true := by decide
/-- L4. -/
theorem test_ldi_bad_register : gives (step (start [] [(0, 0x82), (1, 0x08), (2, 0x01)]))
    (faulted .invalidRegister (start [] [(0, 0x82), (1, 0x08), (2, 0x01)])) = true := by decide
/-- L6. -/
theorem test_prn : gives (step (start [] [(0, 0x47), (1, 0x07)]))
    (fun t => t.out == [244#8] && consoleText t.out == ['2', '4', '4', '\n'] && t.pc == 2) = true := by decide
/-- L11: the byte after the operand is no register. -/
theorem test_prn_ignores_next_byte : gives (step (start [] [(0, 0x47), (2, 0xFF)]))
    (fun t => t.out == [0#8] && consoleText t.out == ['0', '\n'] && t.run == .running) = true := by decide
/-- L10. -/
theorem test_hlt : gives (step (start [] [(0, 0x01), (1, 0xFF), (2, 0xFF)]))
    (fun t => t.run == .halted && t.err == .none && t.pc == 0) = true := by decide

/-- F1 and F2: the highest instruction, and the fetch after it. -/
theorem test_fetch_at_253 :
    gives (step { start [] [(253, 0x82), (254, 0x01), (255, 0x63)] with pc := 253 })
      (fun t => t.reg 1 == 0x63 && t.pc == 256 && gives (step t) (faulted .outOfBounds t)) = true := by decide
/-- F3: the HLT at 254 is not executed. -/
theorem test_fetch_at_254 : gives (step { start [] [(254, 0x01)] with pc := 254 })
    (fun t => t.run == .halted && t.err == .outOfBounds && t.pc == 254) = true := by decide
/-- F8: an unknown opcode byte with the ALU flag set. -/
theorem test_unknown_alu_opcode : gives (step (start [] [(0, 0xA8)]))
    (faulted .unsupportedInstruction (start [] [(0, 0xA8)])) = true := by decide
/-- S7: the empty program. -/
theorem test_reset_runs_into_unknown_opcode : gives (step State.reset)
    (faulted .unsupportedInstruction State.reset) = true := by decide

/-! ## Launch, program text, the host's word -/

/-- The program file of P1, its first three lines and a comment-only and a blank line. -/
theorem test_program_text :
    parseProgram ["10000010 # LDI R0,8".toList, "# comment".toList, "00000000".toList, [], "00001000".toList] =
      some [0x82#8, 0x00#8, 0x08#8] := by decide
theorem test_program_text_refuses : parseProgram ["1000001".toList] = none := by decide
/-- S7's one-byte program at address 0. -/
theorem test_launch : launch [0x82#8, 0x00#8, 0x08#8] = some (start [] [(0, 0x82), (2, 0x08)]) := by decide
/-- The text of S6 in the notation of R94, and the bytes P1 lists for it. -/
theorem test_assemble_without_labels :
    assemble "LDI R0,8; LDI R1,9; ADD R0,R1; PRN R0; HLT".toList =
      some [0x82, 0, 8, 0x82, 1, 9, 0xA0, 0, 1, 0x47, 0, 0x01] := by decide
/-- P2: the label before ADD is address 11. -/
theorem test_assemble_label :
    assemble ("LDI R1,double; LDI R0,0x05; CALL R1; PRN R0; HLT".toList ++ ['\n'] ++
      "double: ADD R0, R0; RET".toList) =
      some [0x82, 1, 11, 0x82, 0, 5, 0x50, 1, 0x47, 0, 0x01, 0xA0, 0, 0, 0x11] := by decide
theorem test_assemble_refuses :
    assemble "NOP".toList = none ∧ assemble "LDI R0,256".toList = none ∧ assemble "ADD R0".toList = none := by decide
/-- The code column of 10_state.md R28 and the bits of R25. -/
theorem test_codes_and_flag_bits :
    ErrorCause.divisionByZero.code = 5 ∧ ErrorCause.outOfBounds.code = 1 ∧ Flag.lt.bits = 0b100#3 ∧
    Flag.gt.bits = 0b010#3 ∧ Flag.eq.bits = 0b001#3 ∧ Flag.unset.bits = 0b000#3 := by decide
/-- The bytes of L3 as the host's word: step runs it right after reset. -/
theorem test_with_fetch_word : gives (step (State.reset.withFetchWord 24 0b11111111_00000101_10000010))
    (fun t => t.reg 5 == 0xFF && t.pc == 3 && t.reg 7 == 0xF4) = true := by decide
theorem test_memory_stays_canonical :
    (start [] [(5, 1), (2, 3), (5, 0), (255, 9)]).mem = [(2, 3#8), (255, 9#8)] := by decide

/-! ## Witnesses: a concrete state and operands that meet all hypotheses of each statement together, one for each
clause, at the ends of the clause's range -/

/-! ### Encoding and the step -/

theorem witness_EncodeOfDecodeGivesFetchedBytes :
    decode 0xAD#8 0xFF#8 0x00#8 = .ok (.shr 0xFF#8 0x00#8) ∧ decode 0x01#8 0xFF#8 0xFF#8 = .ok .hlt := ⟨rfl, rfl⟩

theorem witness_OpcodeBitsGiveOperandCountAndAluFlag :
    decodeOpcode 0x01#8 = some .hlt ∧ decodeOpcode 0x82#8 = some .ldi ∧ decodeOpcode 0xAD#8 = some .shr := by decide

/-- LDI R1,0x63 at the highest address a fetch reaches (F1). -/
def atTop : State := { start [] [(253, 0x82), (254, 0x01), (255, 0x63)] with pc := 253 }

theorem witness_StepRunsDecodedInstruction :
    atTop.run = .running ∧ atTop.memRead atTop.pc.toNat = .ok 0x82#8 ∧
    atTop.memRead ((atTop.pc.toNat : Int) + 1) = .ok 0x01#8 ∧
    atTop.memRead ((atTop.pc.toNat : Int) + 2) = .ok 0x63#8 ∧
    decode 0x82#8 0x01#8 0x63#8 = .ok (.ldi 0x01#8 0x63#8) := ⟨rfl, rfl, rfl, rfl, rfl⟩

theorem witness_FetchNeedsThreeCells :
    (atTop.run = .running ∧ atTop.pc.toNat ≤ 253) ∧
    (({ atTop with pc := 254 } : State).run = .running ∧ 253 < ({ atTop with pc := 254 } : State).pc.toNat) := by
  decide

theorem witness_UnknownOpcodeHaltsWithoutMutation :
    (start [] [(0, 0xFF)]).run = .running ∧
    fetchBytes (start [] [(0, 0xFF)]) = .ok (0xFF#8, 0x00#8, 0x00#8) ∧ decodeOpcode 0xFF#8 = none := ⟨rfl, rfl, rfl⟩

theorem witness_HaltedStateHasNoStep : (takeFault .outOfBounds State.reset).run = .halted := rfl

theorem witness_StepIsTotalWhileRunning : State.reset.run = .running := rfl

theorem witness_FaultsArePrecise :
    ∃ t, State.reset.err = .none ∧ step State.reset = .next t ∧ t.err ≠ .none :=
  ⟨_, rfl, rfl, by decide⟩

theorem witness_EndOfRunTellsHltFromFault :
    (∃ t, (start [] [(0, 0x01)]).err = .none ∧ step (start [] [(0, 0x01)]) = .next t ∧ t.run = .halted ∧
      t.EndedSuccessfully) ∧
    (∃ t, State.reset.err = .none ∧ step State.reset = .next t ∧ t.run = .halted ∧ t.EndedInFault) :=
  ⟨⟨_, rfl, rfl, by decide, by decide⟩, ⟨_, rfl, rfl, by decide, by decide⟩⟩

theorem witness_BadRegisterOperandRaisesInvalidRegister :
    (Instr.jeq 8#8).wf = false ∧ (Instr.shl 7#8 128#8).wf = false ∧
    (∃ t, (Instr.prn 7#8).wf = true ∧ exec (.prn 7#8) { State.reset with err := .invalidRegister } = .next t ∧
      t.err = .invalidRegister) :=
  ⟨rfl, rfl, ⟨_, rfl, rfl, by decide⟩⟩

theorem witness_FaultCausesByInstruction :
    (∃ t, exec (.div 0#8 1#8) State.reset = .next t ∧ t.err = .divisionByZero) ∧
    (∃ t, exec (.push 7#8) (start [(7, 0)] []) = .next t ∧ t.err = .outOfBounds) ∧
    (∃ t, exec (.call 0#8) (start [(7, 0)] []) = .next t ∧ t.err = .outOfBounds) ∧
    (∃ t, exec .ret (start [(7, 0xFF)] []) = .next t ∧ t.err = .outOfBounds) ∧
    (∃ t, exec (.pop 0#8) (start [(7, 0xFF)] []) = .next t ∧ t.err = .outOfBounds) ∧
    (∃ t, exec (.pop 7#8) (start [] [(0xF4, 0xFF)]) = .next t ∧ t.err = .outOfBounds) ∧
    (∃ t, exec (.pop 7#8) (start [(7, 0xFF)] [(0xFF, 0x20)]) = .next t ∧ t.err = .none) :=
  ⟨⟨_, rfl, by decide⟩, ⟨_, rfl, by decide⟩, ⟨_, rfl, by decide⟩, ⟨_, rfl, by decide⟩, ⟨_, rfl, by decide⟩,
    ⟨_, rfl, by decide⟩, ⟨_, rfl, by decide⟩⟩

theorem witness_StepKeepsInvariant :
    (∃ t, atTop.Inv ∧ step atTop = .next t ∧ t.pc = 256) ∧
    (∃ t, State.reset.Inv ∧ step State.reset = .next t ∧ t.err ≠ .none) :=
  ⟨⟨_, by decide, rfl, by decide⟩, ⟨_, by decide, rfl, by decide⟩⟩

theorem witness_LaunchPlacesProgramFromZero :
    ([] : List Byte).length ≤ 256 ∧ (List.replicate 256 0x01#8).length ≤ 256 ∧
    256 < (List.replicate 257 0x01#8).length :=
  ⟨by decide, by rw [List.length_replicate], by rw [List.length_replicate]; omega⟩

/-! ### Memory -/

theorem witness_MemoryContract :
    (∃ t, State.reset.memWrite 0 0x33#8 = .ok t ∧ t.memRead 0 = .ok 0x33#8) ∧
    (∃ t, State.reset.memWrite 255 0x33#8 = .ok t ∧ t.memRead 255 = .ok 0x33#8 ∧ t.memRead 0 = .ok 0x00#8) ∧
    State.reset.memRead (-1) = .error .outOfBounds ∧ State.reset.memRead 256 = .error .outOfBounds ∧
    (∃ t, (∀ a, Instr.pop 7#8 ≠ .push a) ∧ (∀ a, Instr.pop 7#8 ≠ .call a) ∧ exec (.pop 7#8) State.reset = .next t) ∧
    (∃ t, (Instr.push 7#8).wf = true ∧ spDec ((start [(7, 1)] []).reg 7) = .ok 0x00#8 ∧
      exec (.push 7#8) (start [(7, 1)] []) = .next t) ∧
    (∃ t, (Instr.call 0#8).wf = true ∧ spDec ((start [(7, 255)] []).reg 7) = .ok 0xFE#8 ∧
      exec (.call 0#8) (start [(7, 255)] []) = .next t) ∧
    (∃ t, (Instr.push 8#8).wf = false ∧ exec (.push 8#8) State.reset = .next t) ∧
    (∃ t, spDec ((start [(7, 0)] []).reg 7) = .error .outOfBounds ∧
      exec (.call 7#8) (start [(7, 0)] []) = .next t) ∧
    fetchBytes atTop = .ok (0x82#8, 0x01#8, 0x63#8) ∧
    (∃ t, loadFrom State.reset 255 [0x33#8] = .ok t ∧ t.memRead 255 = .ok 0x33#8) :=
  ⟨⟨_, rfl, rfl⟩, ⟨_, rfl, rfl, rfl⟩, rfl, rfl, ⟨_, by simp, by simp, rfl⟩, ⟨_, rfl, rfl, rfl⟩, ⟨_, rfl, rfl, rfl⟩,
    ⟨_, rfl, rfl⟩, ⟨_, rfl, rfl⟩, rfl, ⟨_, rfl, rfl⟩⟩

theorem witness_MemoriesThatReadTheSameAreEqual :
    (start [] [(2, 3), (255, 9)]).mem.wf ∧ (start [] [(255, 9), (0, 1), (2, 3), (0, 0)]).mem.wf ∧
    MemKept (start [] [(2, 3), (255, 9)]) (start [] [(255, 9), (0, 1), (2, 3), (0, 0)]) :=
  ⟨by decide, by decide, fun _ => rfl⟩

theorem witness_OnlyPushAndCallWriteMemory :
    (∃ t, (∀ a, Instr.pop 0#8 ≠ .push a) ∧ (∀ a, Instr.pop 0#8 ≠ .call a) ∧
      exec (.pop 0#8) State.reset = .next t) ∧
    (∃ t, exec (.push 7#8) (start [(7, 1)] []) = .next t ∧ spDec ((start [(7, 1)] []).reg 7) = .ok 0x00#8) ∧
    (∃ t, exec (.call 7#8) (start [(7, 255)] []) = .next t ∧ spDec ((start [(7, 255)] []).reg 7) = .ok 0xFE#8) ∧
    (∃ t, exec (.push 0#8) (start [(7, 0)] []) = .next t ∧ (start [(7, 0)] []).reg 7 = 0x00#8) :=
  ⟨⟨_, by simp, by simp, rfl⟩, ⟨_, rfl, rfl⟩, ⟨_, rfl, rfl⟩, ⟨_, rfl, rfl⟩⟩

theorem witness_PushedByteIsFetched :
    (∃ t, exec (.push 0#8) (start [(0, 0x11), (7, 254)] []) = .next t ∧
      spDec ((start [(0, 0x11), (7, 254)] []).reg 7) = .ok 253#8 ∧ MemKept t { t with pc := 253 } ∧
      ({ t with pc := 253 } : State).pc = zext9 253#8 ∧ ({ t with pc := 253 } : State).pc.toNat ≤ 253) ∧
    (∃ t, exec (.push 7#8) (start [(7, 1)] []) = .next t ∧
      spDec ((start [(7, 1)] []).reg 7) = .ok 0#8 ∧ MemKept t { t with pc := 0 } ∧
      ({ t with pc := 0 } : State).pc = zext9 0#8 ∧ ({ t with pc := 0 } : State).pc.toNat ≤ 253) :=
  ⟨⟨_, rfl, rfl, fun _ => rfl, rfl, by decide⟩, ⟨_, rfl, rfl, fun _ => rfl, rfl, by decide⟩⟩

/-! ### Whole-machine rules -/

theorem witness_OnlyCmpAndResetWriteFlag :
    (∃ t, (∀ a b, Instr.jeq 0#8 ≠ .cmp a b) ∧ (Flag.gt = .eq ↔ State.reset.fl = .eq) ∧
      exec (.jeq 0#8) State.reset = .next t) ∧
    (∃ t, (Instr.cmp 0#8 7#8).wf = true ∧ exec (.cmp 0#8 7#8) State.reset = .next t ∧ t.fl = .lt) ∧
    (∃ t, step (State.reset.setFlag .gt) = .next t ∧ (State.reset.setFlag .gt).fl ≠ .unset) :=
  ⟨⟨_, by simp, by decide, rfl⟩, ⟨_, by decide, rfl, by decide⟩, ⟨_, rfl, by decide⟩⟩

theorem witness_RegistersReadAndWrittenByTable :
    (∃ t, exec (.push 0#8) State.reset = .next t ∧ (1 : Fin 8).val ∉ regsWritten (.push 0#8)) ∧
    (∃ t, exec (.ldi 7#8 1#8) State.reset = .next t ∧ (7 : Fin 8).val ∉ regsRead (.ldi 7#8 1#8) ∧
      (7 : Fin 8).val ∈ regsWritten (.ldi 7#8 1#8) ∧ t.pc ≠ State.reset.pc) ∧
    (∃ t, exec (.cmp 0#8 1#8) State.reset = .next t ∧ (7 : Fin 8).val ∉ regsRead (.cmp 0#8 1#8) ∧
      (7 : Fin 8).val ∉ regsWritten (.cmp 0#8 1#8)) ∧
    (∃ t, State.reset.fl ≠ .eq ∧ exec (.jeq 7#8) State.reset = .next t) ∧
    (∃ t, (State.reset.setFlag .eq).fl = .eq ∧ exec (.jne 8#8) (State.reset.setFlag .eq) = .next t) :=
  ⟨⟨_, rfl, by decide⟩, ⟨_, rfl, by decide, by decide, by decide⟩, ⟨_, rfl, by decide, by decide⟩,
    ⟨_, by decide, rfl⟩, ⟨_, by decide, rfl⟩⟩

theorem witness_NextPcComesFromTheHandler :
    (∃ t, step atTop = .next t ∧ t.run = .running) ∧ (∃ t, step State.reset = .next t ∧ t.run = .halted) :=
  ⟨⟨_, rfl, by decide⟩, ⟨_, rfl, by decide⟩⟩

theorem witness_ConsoleLogOnlyGrowsByPrn :
    (∃ t, (∀ a, Instr.hlt ≠ .prn a) ∧ exec .hlt State.reset = .next t) ∧
    (∃ t, step (start [] [(0, 0x47)]) = .next t ∧ t.out = [0#8]) ∧
    (∃ t, exec (.prn 7#8) (State.reset.emit 1#8) = .next t ∧ t.out = [1#8, 244#8]) :=
  ⟨⟨_, by simp, rfl⟩, ⟨_, rfl, by decide⟩, ⟨_, rfl, by decide⟩⟩

/-! ### ALU: operands 0 and 7 name registers, 8 and 255 do not -/

theorem witness_AddWritesSumModulo256 :
    (7#8).toNat < 8 ∧ (0#8).toNat < 8 ∧ 8 ≤ (8#8).toNat ∧ ∃ t, exec (.add 7#8 0#8) State.reset = .next t :=
  ⟨by decide, by decide, by decide, _, rfl⟩

theorem witness_SubWritesDifferenceModulo256 :
    (7#8).toNat < 8 ∧ (0#8).toNat < 8 ∧ 8 ≤ (8#8).toNat ∧ ∃ t, exec (.sub 7#8 0#8) State.reset = .next t :=
  ⟨by decide, by decide, by decide, _, rfl⟩

theorem witness_MulWritesProductModulo256 :
    (7#8).toNat < 8 ∧ (0#8).toNat < 8 ∧ 8 ≤ (8#8).toNat ∧ ∃ t, exec (.mul 7#8 0#8) State.reset = .next t :=
  ⟨by decide, by decide, by decide, _, rfl⟩

theorem witness_OrWritesBitwiseOr :
    (7#8).toNat < 8 ∧ (0#8).toNat < 8 ∧ 8 ≤ (8#8).toNat ∧ ∃ t, exec (.or 7#8 0#8) State.reset = .next t :=
  ⟨by decide, by decide, by decide, _, rfl⟩

theorem witness_XorWritesBitwiseXor :
    (7#8).toNat < 8 ∧ (0#8).toNat < 8 ∧ 8 ≤ (8#8).toNat ∧ ∃ t, exec (.xor 7#8 0#8) State.reset = .next t :=
  ⟨by decide, by decide, by decide, _, rfl⟩

theorem witness_ShlShiftsByAmountModulo8 :
    (7#8).toNat < 8 ∧ (0#8).toNat < 8 ∧ 8 ≤ (8#8).toNat ∧ ∃ t, exec (.shl 7#8 0#8) State.reset = .next t :=
  ⟨by decide, by decide, by decide, _, rfl⟩

theorem witness_ShrShiftsByAmountModulo8 :
    (7#8).toNat < 8 ∧ (0#8).toNat < 8 ∧ 8 ≤ (8#8).toNat ∧ ∃ t, exec (.shr 7#8 0#8) State.reset = .next t :=
  ⟨by decide, by decide, by decide, _, rfl⟩

theorem witness_DivWritesFloorOfQuotient :
    (7#8).toNat < 8 ∧ State.reset.reg 7 ≠ 0x00#8 ∧ 8 ≤ (8#8).toNat ∧
    ∃ t, exec (.div 0#8 7#8) State.reset = .next t :=
  ⟨by decide, by decide, by decide, _, rfl⟩

theorem witness_DivByZeroHaltsWithoutMutation :
    (∃ t, State.reset.reg 0 = 0x00#8 ∧ exec (.div 7#8 0#8) State.reset = .next t ∧ t.err = .divisionByZero) ∧
    (∃ t, 8 ≤ (8#8).toNat ∧ exec (.div 8#8 0#8) State.reset = .next t) ∧
    (∃ t, (∀ a b, Instr.ret ≠ .div a b) ∧
      exec .ret { State.reset with err := .divisionByZero } = .next t ∧ t.err = .divisionByZero) :=
  ⟨⟨_, rfl, rfl, by decide⟩, ⟨_, by decide, rfl⟩, ⟨_, by simp, rfl, by decide⟩⟩

theorem witness_CmpWritesUnsignedOrder :
    (7#8).toNat < 8 ∧ (0#8).toNat < 8 ∧ 8 ≤ (8#8).toNat ∧
    (∃ t, exec (.cmp 7#8 0#8) State.reset = .next t ∧ t.fl = .gt) ∧
    (∃ t, exec (.cmp 0#8 7#8) State.reset = .next t ∧ t.fl = .lt) ∧
    (∃ t, exec (.cmp 7#8 7#8) State.reset = .next t ∧ t.fl = .eq) :=
  ⟨by decide, by decide, by decide, ⟨_, rfl, by decide⟩, ⟨_, rfl, by decide⟩, ⟨_, rfl, by decide⟩⟩

/-! ### Stack and subroutine -/

theorem witness_PushStoresBelowStackPointer :
    ((7#8).toNat < 8 ∧ spDec ((start [(7, 1)] []).reg 7) = .ok 0x00#8) ∧
    ((0#8).toNat < 8 ∧ spDec ((start [(7, 255)] []).reg 7) = .ok 0xFE#8) ∧ 8 ≤ (8#8).toNat ∧
    (start [(7, 0)] []).reg 7 = 0x00#8 ∧ State.reset.reg 7 ≠ 0x00#8 :=
  ⟨⟨by decide, rfl⟩, ⟨by decide, rfl⟩, by decide, by decide, by decide⟩

theorem witness_PopLoadsAtStackPointer :
    ((0#8).toNat < 8 ∧ (start [(7, 254)] []).memRead ((start [(7, 254)] []).reg 7).toNat = .ok 0x00#8 ∧
      (if (0#8) = 7#8 then 0x00#8 else (start [(7, 254)] []).reg 7) ≠ 0xFF#8) ∧
    ((7#8).toNat < 8 ∧ (start [(7, 255)] []).memRead ((start [(7, 255)] []).reg 7).toNat = .ok 0x00#8 ∧
      (if (7#8) = 7#8 then 0x00#8 else (start [(7, 255)] []).reg 7) ≠ 0xFF#8) ∧
    ((6#8).toNat < 8 ∧ (if (6#8) = 7#8 then 0x00#8 else (start [(7, 255)] []).reg 7) = 0xFF#8) ∧
    ((start [] [(0xF4, 0xFF)]).memRead ((start [] [(0xF4, 0xFF)]).reg 7).toNat = .ok 0xFF#8 ∧
      (if (7#8) = 7#8 then 0xFF#8 else (start [] [(0xF4, 0xFF)]).reg 7) = 0xFF#8) ∧
    8 ≤ (8#8).toNat :=
  ⟨⟨by decide, rfl, by decide⟩, ⟨by decide, rfl, by decide⟩, ⟨by decide, by decide⟩, ⟨rfl, by decide⟩, by decide⟩

theorem witness_CallPushesReturnAddressAndJumps :
    ((7#8).toNat < 8 ∧ ({ start [(7, 1)] [] with pc := 253 } : State).pc.toNat ≤ 253 ∧
      spDec (({ start [(7, 1)] [] with pc := 253 } : State).reg 7) = .ok 0x00#8) ∧
    ((0#8).toNat < 8 ∧ State.reset.pc.toNat ≤ 253 ∧ spDec (State.reset.reg 7) = .ok 0xF3#8) ∧
    8 ≤ (8#8).toNat ∧ (start [(7, 0)] []).reg 7 = 0x00#8 :=
  ⟨⟨by decide, by decide, rfl⟩, ⟨by decide, by decide, rfl⟩, by decide, by decide⟩

theorem witness_RetPopsReturnAddress :
    ((start [(7, 254)] [(254, 0xFF)]).memRead ((start [(7, 254)] [(254, 0xFF)]).reg 7).toNat = .ok 0xFF#8 ∧
      (start [(7, 254)] [(254, 0xFF)]).reg 7 ≠ 0xFF#8) ∧
    ((start [(7, 255)] []).memRead ((start [(7, 255)] []).reg 7).toNat = .ok 0x00#8 ∧
      (start [(7, 255)] []).reg 7 = 0xFF#8) :=
  ⟨⟨rfl, by decide⟩, ⟨rfl, by decide⟩⟩

theorem witness_PushThenPopMovesRegister :
    (0#8).toNat < 8 ∧ (6#8).toNat < 8 ∧ (0#8) ≠ 7#8 ∧ (6#8) ≠ 7#8 ∧ (start [(7, 1)] []).reg 7 ≠ 0x00#8 ∧
    (start [(7, 255)] []).reg 7 ≠ 0x00#8 := by decide

theorem witness_RetResumesAfterCall :
    ∃ t, (7#8).toNat < 8 ∧ ({ start [(7, 1)] [] with pc := 253 } : State).pc.toNat ≤ 253 ∧
      ({ start [(7, 1)] [] with pc := 253 } : State).reg 7 ≠ 0x00#8 ∧
      exec (.call 7#8) { start [(7, 1)] [] with pc := 253 } = .next t ∧
      (t.setReg 0 9#8).reg 7 = t.reg 7 ∧
      (t.setReg 0 9#8).memRead (t.reg 7).toNat = t.memRead (t.reg 7).toNat :=
  ⟨_, by decide, by decide, by decide, rfl, by decide, rfl⟩

/-! ### Jumps, load-immediate, print -/

theorem witness_JmpSetsPcToRegister :
    (0#8).toNat < 8 ∧ (7#8).toNat < 8 ∧ 8 ≤ (8#8).toNat ∧ 8 ≤ (255#8).toNat := by decide

theorem witness_JeqJumpsWhenEqual :
    (7#8).toNat < 8 ∧ (State.reset.setFlag .eq).fl = .eq ∧ State.reset.fl ≠ .eq ∧ 8 ≤ (8#8).toNat := by decide

theorem witness_JneJumpsWhenNotEqual :
    (7#8).toNat < 8 ∧ (State.reset.setFlag .eq).fl = .eq ∧ State.reset.fl ≠ .eq ∧ 8 ≤ (8#8).toNat := by decide

theorem witness_CompareThenConditionalJump :
    (0#8).toNat < 8 ∧ (7#8).toNat < 8 ∧ (6#8).toNat < 8 ∧ State.reset.reg 0 = State.reset.reg 6 ∧
    State.reset.reg 0 ≠ State.reset.reg 7 ∧ (State.reset.reg 0).toNat < (State.reset.reg 7).toNat := by decide

theorem witness_LdiWritesImmediate : (0#8).toNat < 8 ∧ (7#8).toNat < 8 ∧ 8 ≤ (8#8).toNat := by decide

theorem witness_PrnEmitsRegister : (0#8).toNat < 8 ∧ (7#8).toNat < 8 ∧ 8 ≤ (8#8).toNat := by decide

theorem witness_LdiThenPrnPrintsImmediate : (0#8).toNat < 8 ∧ (7#8).toNat < 8 := by decide

end Sys2Proof.Tests
end

section
/-! Proofs about the flag register (10_state.md R26). Putting another value into `fl` commutes with every shared
operation, so an instruction can depend on the flag only where its own meaning names `fl`: the test of JEQ and JNE. -/

namespace Sys2Proof.Machine

variable {s t : State} {f : Flag}

/-- An answer with `f` as the flag of its next state. -/
def answerWithFlag (f : Flag) : Host.Outcome State Fault Refusal → Host.Outcome State Fault Refusal
  | .next t => .next (t.setFlag f)
  | .fault r => .fault r
  | .refused r => .refused r

/-- A result with `f` as the flag of the state it commits. -/
def resultWithFlag (f : Flag) : Except ErrorCause State → Except ErrorCause State
  | .ok t => .ok (t.setFlag f)
  | .error c => .error c

theorem State.setFlag_self (s : State) : s.setFlag s.fl = s := rfl

theorem State.setReg_setFlag (s : State) (f : Flag) (r : Fin 8) (v : Byte) :
    (s.setFlag f).setReg r v = (s.setReg r v).setFlag f := rfl

/-! ## The shared operations -/

theorem finish_setFlag (s : State) (f : Flag) (r : Except ErrorCause State) :
    finish (s.setFlag f) (resultWithFlag f r) = answerWithFlag f (finish s r) := by
  cases r <;> rfl

/-- An instruction with one register operand commutes with setting the flag when its own rule does. -/
theorem finish_oneReg_setFlag {opA : Byte} {body body' : Fin 8 → Except ErrorCause State}
    (h : ∀ a, body' a = resultWithFlag f (body a)) :
    finish (s.setFlag f) (oneReg opA body') = answerWithFlag f (finish s (oneReg opA body)) := by
  rcases chkreg_cases opA with ⟨ha, -⟩ | ⟨ha, -⟩
  · rw [oneReg_ok ha, oneReg_ok ha, h, finish_setFlag]
  · rw [oneReg_error ha, oneReg_error ha]; rfl

/-- The pre-decrement of PUSH and CALL commutes with setting the flag when what follows it does. -/
theorem withPushedSp_setFlag {body body' : State → Byte → Except ErrorCause State}
    (h : ∀ s1 sp1, body' (s1.setFlag f) sp1 = resultWithFlag f (body s1 sp1)) :
    withPushedSp (s.setFlag f) body' = resultWithFlag f (withPushedSp s body) := by
  rcases spDec_cases (s.reg 7) with ⟨hz, -⟩ | ⟨-, hsp, -⟩
  · rw [withPushedSp_zero hz, withPushedSp_zero (s := s.setFlag f) hz]; rfl
  · rw [withPushedSp_ok hsp, withPushedSp_ok (s := s.setFlag f) hsp, State.setReg_setFlag, h]

theorem aluBinary_setFlag (g : Byte → Byte → Except ErrorCause Byte) (opA opB : Byte) (s : State) (f : Flag) :
    aluBinary g opA opB (s.setFlag f) = answerWithFlag f (aluBinary g opA opB s) := by
  by_cases hops : opA.toNat < 8 ∧ opB.toNat < 8
  · obtain ⟨ha, hb⟩ := hops
    cases hg : g (s.reg ⟨opA.toNat, ha⟩) (s.reg ⟨opB.toNat, hb⟩) with
    | error c => rw [aluBinary_raises ha hb hg, aluBinary_raises (s := s.setFlag f) ha hb hg]; rfl
    | ok r => rw [aluBinary_ok ha hb hg, aluBinary_ok (s := s.setFlag f) ha hb hg]; rfl
  · have hbad : 8 ≤ opA.toNat ∨ 8 ≤ opB.toNat := by omega
    rw [aluBinary_invalid hbad, aluBinary_invalid hbad]; rfl

theorem jumpIf_setFlag (taken : Bool) (opA : Byte) (s : State) (f : Flag) :
    jumpIf taken opA (s.setFlag f) = answerWithFlag f (jumpIf taken opA s) :=
  finish_oneReg_setFlag fun _ => by cases taken <;> rfl

/-- Whether a jump is taken decides its next `pc` and nothing else. -/
theorem jumpIf_taken_only_pc {taken : Bool} {opA : Byte} (h : jumpIf taken opA s = .next t) (taken' : Bool) :
    ∃ p, jumpIf taken' opA s = .next { t with pc := p } := by
  rcases chkreg_cases opA with ⟨ha, -⟩ | ⟨ha, -⟩
  · rw [jumpIf_ok ha] at h ⊢
    cases h
    exact ⟨(if taken' then s.jumpTo (s.reg ⟨opA.toNat, ha⟩) else s.advancePc 2).pc,
      by cases taken <;> cases taken' <;> rfl⟩
  · rw [jumpIf_invalid ha] at h ⊢
    cases h
    exact ⟨s.pc, rfl⟩

/-! ## The stack instructions: the stack pointer and the byte read do not come from the flag -/

theorem execPush_setFlag (opA : Byte) (s : State) (f : Flag) :
    execPush opA (s.setFlag f) = answerWithFlag f (execPush opA s) :=
  finish_oneReg_setFlag fun _ => withPushedSp_setFlag fun s1 sp1 => by
    simp only [State.memWrite_byte]; rfl

theorem execCall_setFlag (opA : Byte) (s : State) (f : Flag) :
    execCall opA (s.setFlag f) = answerWithFlag f (execCall opA s) :=
  finish_oneReg_setFlag fun _ => withPushedSp_setFlag fun s1 sp1 => by
    simp only [State.memWrite_byte]; rfl

theorem execPop_setFlag (opA : Byte) (s : State) (f : Flag) :
    execPop opA (s.setFlag f) = answerWithFlag f (execPop opA s) :=
  finish_oneReg_setFlag fun a => by
    simp only [State.memRead_byte, State.setReg_setFlag, State.setFlag_reg, State.setFlag_mem]
    cases spInc ((s.setReg a (s.mem.peek (s.reg 7).toNat)).reg Config.sp) <;> rfl

theorem execRet_setFlag (s : State) (f : Flag) : execRet (s.setFlag f) = answerWithFlag f (execRet s) := by
  rcases spInc_cases (s.reg 7) with ⟨hfull, -⟩ | ⟨-, hsp, -⟩
  · rw [execRet_full hfull, execRet_full (s := s.setFlag f) hfull]; rfl
  · rw [execRet_ok rfl hsp, execRet_ok (s := s.setFlag f) rfl hsp]; rfl

/-! ## All instructions -/

/-- The instructions whose own meaning names the flag: CMP writes it, JEQ and JNE test it. -/
def usesFlag : Instr → Bool
  | .cmp _ _ | .jeq _ | .jne _ => true
  | _ => false

/-- An instruction whose meaning does not name the flag does the same under any flag value. -/
theorem exec_setFlag_of_not_usesFlag {i : Instr} (hi : usesFlag i = false) (s : State) (f : Flag) :
    exec i (s.setFlag f) = answerWithFlag f (exec i s) := by
  cases i with
  | hlt => rfl
  | ret => exact execRet_setFlag s f
  | push a => exact execPush_setFlag a s f
  | pop a => exact execPop_setFlag a s f
  | call a => exact execCall_setFlag a s f
  | jmp a => exact jumpIf_setFlag true a s f
  | prn a => exact finish_oneReg_setFlag fun _ => rfl
  | ldi a v => exact finish_oneReg_setFlag fun _ => rfl
  | add a b | sub a b | mul a b | div a b | or a b | xor a b | shl a b | shr a b =>
    simp only [exec, execAdd, execSub, execMul, execDiv, execOr, execXor, execShl, execShr, aluBinary_setFlag]
  | cmp a b | jeq a | jne a => cases hi

/-- An instruction other than CMP does the same under two flag values that agree on being EQ. -/
theorem exec_setFlag_of_isEq {i : Instr} (hcmp : ∀ a b, i ≠ .cmp a b) (hf : f.isEq = s.fl.isEq) :
    exec i (s.setFlag f) = answerWithFlag f (exec i s) := by
  cases i with
  | jeq a => exact (jumpIf_setFlag f.isEq a s f).trans (by rw [hf]; rfl)
  | jne a => exact (jumpIf_setFlag (!f.isEq) a s f).trans (by rw [hf]; rfl)
  | cmp a b => exact absurd rfl (hcmp a b)
  | _ => exact exec_setFlag_of_not_usesFlag rfl s f

/-- An instruction other than CMP leaves the flag: setting it to what it is changes nothing, in `s` and so in `t`. -/
theorem exec_fl_of_ne_cmp {i : Instr} (hcmp : ∀ a b, i ≠ .cmp a b) (h : exec i s = .next t) : t.fl = s.fl := by
  have hself := exec_setFlag_of_isEq (s := s) (f := s.fl) hcmp rfl
  rw [State.setFlag_self, h] at hself
  injection hself with ht
  exact (congrArg State.fl ht :)

/-- Under another flag value an instruction does the same to everything but `pc` and the flag itself. -/
theorem exec_setFlag_only_pc_fl {i : Instr} (h : exec i s = .next t) (f : Flag) :
    ∃ p g, exec i (s.setFlag f) = .next { t with pc := p, fl := g } := by
  cases i with
  | jeq a =>
    obtain ⟨p, hp⟩ := jumpIf_taken_only_pc h f.isEq
    exact ⟨p, f, (jumpIf_setFlag f.isEq a s f).trans (congrArg (answerWithFlag f) hp)⟩
  | jne a =>
    obtain ⟨p, hp⟩ := jumpIf_taken_only_pc h (!f.isEq)
    exact ⟨p, f, (jumpIf_setFlag (!f.isEq) a s f).trans (congrArg (answerWithFlag f) hp)⟩
  | cmp a b =>
    by_cases hops : a.toNat < 8 ∧ b.toNat < 8
    · obtain ⟨ha, hb⟩ := hops
      cases (execCmp_ok ha hb).symm.trans h
      exact ⟨_, _, execCmp_ok ha hb⟩
    · have hbad : 8 ≤ a.toNat ∨ 8 ≤ b.toNat := by omega
      cases (execCmp_invalid hbad).symm.trans h
      exact ⟨_, _, execCmp_invalid hbad⟩
  | _ => exact ⟨t.pc, f, (exec_setFlag_of_not_usesFlag rfl s f).trans (congrArg (answerWithFlag f) h)⟩

/-! ## CMP -/

theorem compareFlag_mem (va vb : Byte) : compareFlag va vb ∈ [Flag.eq, Flag.lt, Flag.gt] := by
  unfold compareFlag
  split
  · decide
  · split <;> decide

/-- CMP on two registers writes one of the three results of a comparison. -/
theorem exec_cmp_fl_mem {a b : Byte} (hwf : (Instr.cmp a b).wf = true) (h : exec (.cmp a b) s = .next t) :
    t.fl ∈ [Flag.eq, Flag.lt, Flag.gt] := by
  obtain ⟨ha, hb⟩ := wf_two.mp hwf
  cases (execCmp_ok ha hb).symm.trans h
  exact compareFlag_mem _ _

/-- No instruction makes the flag UNSET. -/
theorem exec_fl_ne_unset {i : Instr} (h : exec i s = .next t) (hs : s.fl ≠ .unset) : t.fl ≠ .unset := by
  by_cases hcmp : ∃ a b, i = .cmp a b
  · obtain ⟨a, b, rfl⟩ := hcmp
    rcases exec_effect (.cmp a b) s with ⟨-, hfault⟩ | ⟨hwf, -⟩
    · cases hfault.symm.trans h
      exact hs
    · intro hunset
      have hmem := exec_cmp_fl_mem hwf h
      rw [hunset] at hmem
      exact absurd hmem (by decide)
  · rw [exec_fl_of_ne_cmp (fun a b e => hcmp ⟨a, b, e⟩) h]
    exact hs

/-- No step makes the flag UNSET. -/
theorem step_fl_ne_unset (h : step s = .next t) (hs : s.fl ≠ .unset) : t.fl ≠ .unset := by
  obtain ⟨-, ⟨c, -, rfl⟩ | ⟨i, -, hi⟩⟩ := step_cases h
  · exact hs
  · exact exec_fl_ne_unset hi hs

theorem isEq_eq_of_iff {f g : Flag} (h : f = .eq ↔ g = .eq) : f.isEq = g.isEq :=
  Bool.eq_iff_iff.mpr (by simp only [Flag.isEq, beq_iff_eq, h])

/-- Settles O23: the flag commutes with every operation but CMP's write and the test of JEQ and JNE, whose answer
decides `pc` only; that an instruction other than CMP leaves the flag is the case of setting it to what it is. -/
theorem onlyCmpAndResetWriteFlag : Obligations.OnlyCmpAndResetWriteFlag := by
  refine ⟨fun _ => rfl, fun _ _ _ => exec_fl_of_ne_cmp, fun _ _ _ _ => exec_cmp_fl_mem,
    fun _ _ => step_fl_ne_unset, fun i s t f hcmp hf h => ?_, fun i s t f h => ?_⟩
  · exact (exec_setFlag_of_isEq hcmp (isEq_eq_of_iff hf)).trans (congrArg (answerWithFlag f) h)
  · obtain ⟨p, g, hpg⟩ := exec_setFlag_only_pc_fl h f
    exact ⟨_, hpg, fun _ _ => rfl, fun _ => rfl, rfl, rfl, rfl⟩

end Sys2Proof.Machine
end

section
/-! Proofs about PUSH, POP and RET (41_stack_call.md R131, R132, R134): the next state of each is the one its outcome
equation in Sys2Proof/Laws/Exec.lean writes out, so what is left is what register 7, the operand and memory read
there. -/

namespace Sys2Proof.Machine

/-! ## Frames of the state's updates -/

theorem regsKeptBut_setReg (s : State) (r : Fin 8) (v : Byte) : RegsKeptBut [r] s (s.setReg r v) :=
  fun _ hq => s.reg_setReg_ne v (List.ne_of_not_mem_cons hq)

theorem regsKeptBut_setReg_setReg (s : State) (r r' : Fin 8) (v v' : Byte) :
    RegsKeptBut [r, r'] s ((s.setReg r v).setReg r' v') := fun _ hq => by
  obtain ⟨hr, hr'⟩ := List.ne_and_not_mem_of_not_mem_cons hq
  rw [State.reg_setReg_ne _ _ (List.ne_of_not_mem_cons hr'), State.reg_setReg_ne _ _ hr]

theorem memKeptBut_setCell (s : State) (a : Nat) (v : Byte) : MemKeptBut a s (s.setCell a v) :=
  fun _ h => s.memRead_setCell_ne v h

/-! ## The stack pointer -/

/-- When the checked decrement answers, it is one below as a number. -/
theorem toNat_add_one_of_spDec {v sp1 : Byte} (h : spDec v = .ok sp1) : sp1.toNat + 1 = v.toNat := by
  rcases spDec_cases v with ⟨-, he⟩ | ⟨-, he, hval⟩
  · cases he.symm.trans h
  · cases he.symm.trans h
    exact hval

/-- The register an operand byte names, read after a write to register 7. -/
theorem State.reg_operand_setReg_sp (s : State) {a : Byte} (ha : a.toNat < 8) (v : Byte) :
    (s.setReg 7 v).reg ⟨a.toNat, ha⟩ = if a = 7#8 then v else s.reg ⟨a.toNat, ha⟩ := by
  simp only [State.reg_setReg, operand_eq_sp ha]

/-- Register 7, read after a write to the register an operand byte names. -/
theorem State.reg_sp_setReg_operand (s : State) {a : Byte} (ha : a.toNat < 8) (v : Byte) :
    (s.setReg ⟨a.toNat, ha⟩ v).reg 7 = if a = 7#8 then v else s.reg 7 := by
  simp only [State.reg_setReg, eq_comm (a := (7 : Fin 8)), operand_eq_sp ha]

/-- A byte read at register 7's address is the cell there. -/
theorem peek_sp_of_memRead {s : State} {v : Byte} (h : s.memRead (s.reg 7).toNat = .ok v) :
    s.mem.peek (s.reg 7).toNat = v := by
  rw [State.memRead_byte] at h
  exact Except.ok.inj h

/-! ## The obligations -/

/-- Settles O37: the value stored is the operand register's after the decrement, which differs from its value before
only for PUSH R7. -/
theorem pushStoresBelowStackPointer : Obligations.PushStoresBelowStackPointer := by
  refine fun opA s => ⟨fun opB => decode_known (o := .push) rfl opA opB, fun ha sp1 hsp => ?_,
    execPush_invalid, execPush_zero, fun hne => ?_⟩
  · refine ⟨_, execPush_ok ha hsp, toNat_add_one_of_spDec hsp, s.reg_setReg_same 7 sp1, regsKeptBut_setReg s 7 sp1,
      ?_, memKeptBut_setCell _ _ _, rfl, rfl, rfl, rfl, rfl⟩
    rw [← State.reg_operand_setReg_sp]
    exact State.memRead_setCell_same _ _ _
  · rcases spDec_cases (s.reg 7) with ⟨hz, -⟩ | ⟨-, hsp, -⟩
    · exact absurd hz hne
    · exact ⟨_, hsp⟩

/-- Settles O38: the value incremented is register 7's after the operand is written, which is the popped byte only for
POP R7; the increment is written last, so it wins there. -/
theorem popLoadsAtStackPointer : Obligations.PopLoadsAtStackPointer := by
  refine fun opA s => ⟨fun opB => decode_known (o := .pop) rfl opA opB, fun ha v hv => ?_,
    execPop_invalid, _, s.memRead_byte _⟩
  have hpeek := peek_sp_of_memRead hv
  rw [← s.reg_sp_setReg_operand ha v]
  rcases spInc_cases ((s.setReg ⟨opA.toNat, ha⟩ v).reg 7) with ⟨hfull, -⟩ | ⟨hne, hsp, hval⟩
  · exact ⟨fun hne => absurd hfull hne, execPop_full ha hpeek⟩
  · refine ⟨fun _ => ⟨_, execPop_ok ha hpeek hsp, ?_, fun h7 => ?_, regsKeptBut_setReg_setReg _ _ _ _ _,
      rfl, rfl, fun _ => rfl, rfl, rfl, rfl⟩, fun hfull => absurd hfull hne⟩
    · rw [State.advancePc_reg, State.reg_setReg_same, hval]
    · rw [State.advancePc_reg, State.reg_setReg_ne _ _ (mt (operand_eq_sp ha).mp h7), State.reg_setReg_same]

/-- Settles O40: the two outcomes are those of the checked increment of register 7. -/
theorem retPopsReturnAddress : Obligations.RetPopsReturnAddress := by
  refine ⟨fun opA opB => decode_known (o := .ret) rfl opA opB, fun s v hv => ⟨fun hne => ?_, execRet_full⟩⟩
  rcases spInc_cases (s.reg 7) with ⟨hfull, -⟩ | ⟨-, hsp, hval⟩
  · exact absurd hfull hne
  · refine ⟨_, execRet_ok (peek_sp_of_memRead hv) hsp, rfl, ?_, regsKeptBut_setReg s 7 _, rfl, fun _ => rfl, rfl,
      rfl, rfl⟩
    rw [State.jumpTo_reg, State.reg_setReg_same, hval]

end Sys2Proof.Machine
end

section
/-! Proofs about JMP (42_jump.md R141): its two outcomes are those of the jumps' common rule, taken. -/

namespace Sys2Proof.Machine

/-- JMP on an operand that names a register jumps to that register's byte. -/
theorem exec_jmp_ok {s : State} {opA : Byte} (ha : opA.toNat < 8) :
    exec (.jmp opA) s = .next (s.jumpTo (s.reg ⟨opA.toNat, ha⟩)) := jumpIf_ok ha

/-- JMP on an operand that names no register takes `InvalidRegister`. -/
theorem exec_jmp_invalid {s : State} {opA : Byte} (ha : 8 ≤ opA.toNat) :
    exec (.jmp opA) s = .next (takeFault .invalidRegister s) := jumpIf_invalid ha

/-- Jumping writes `pc` with the target byte and leaves the rest of the state. -/
theorem jumpTo_only_pc (s : State) (v : Byte) :
    (s.jumpTo v).pc = zext9 v ∧ RegsKeptBut [] s (s.jumpTo v) ∧ (s.jumpTo v).fl = s.fl ∧ MemKept s (s.jumpTo v) ∧
      (s.jumpTo v).out = s.out ∧ ControlKept s (s.jumpTo v) :=
  ⟨rfl, fun q _ => s.jumpTo_reg v q, rfl, State.memRead_congr rfl, rfl, rfl, rfl⟩

/-- Settles O43: on a good operand JMP's next state is `jumpTo` of the register's byte, which writes `pc` alone; on a
bad one it is the fault, which keeps `pc`. -/
theorem jmpSetsPcToRegister : Obligations.JmpSetsPcToRegister := fun opA s =>
  ⟨fun opB => decode_known (o := .jmp) rfl opA opB,
    fun ha => ⟨_, exec_jmp_ok ha, jumpTo_only_pc s _⟩,
    fun ha => ⟨_, exec_jmp_invalid ha, rfl, rfl, rfl⟩⟩

end Sys2Proof.Machine
end

section
/-! Proofs about LDI (43_ldi_prn_hlt.md R150): its next state is the one its outcome equation writes out, a write to one
register and an advance of `pc`. -/

namespace Sys2Proof.Machine

/-- Writing one register and advancing `pc` leaves the rest of the state. -/
theorem setReg_advancePc_only_reg_pc (s : State) (r : Fin 8) (v : Byte) (n : PcWord) :
    ((s.setReg r v).advancePc n).reg r = v ∧ RegsKeptBut [r] s ((s.setReg r v).advancePc n) ∧
      ((s.setReg r v).advancePc n).pc = s.pc + n ∧ ((s.setReg r v).advancePc n).fl = s.fl ∧
      MemKept s ((s.setReg r v).advancePc n) ∧ ((s.setReg r v).advancePc n).out = s.out ∧
      ControlKept s ((s.setReg r v).advancePc n) :=
  ⟨s.reg_setReg_same r v, regsKeptBut_setReg s r v, rfl, rfl, State.memRead_congr rfl, rfl, rfl, rfl⟩

/-- Settles O47: on a good operand LDI's next state writes that register and advances `pc` by 3, and no more; on a bad
one it is the fault. -/
theorem ldiWritesImmediate : Obligations.LdiWritesImmediate := fun opA v s =>
  ⟨decode_known (o := .ldi) rfl opA v,
    fun ha => ⟨_, execLdi_ok ha, setReg_advancePc_only_reg_pc s _ v 3⟩,
    fun ha => ⟨_, execLdi_invalid ha, rfl, rfl⟩⟩

end Sys2Proof.Machine
end

section
/-! Proofs about the next `pc` (44_execution_cycle.md R164). An instruction that is executed either stops the machine
with `pc` held, or leaves the run state as it was and selects the next `pc` itself. -/

namespace Sys2Proof.Machine

variable {s t : State} {i : Instr}

/-- An instruction that is fetched stands at most at 253. -/
theorem pc_le_of_fetchInstr (h : fetchInstr s = .ok i) : s.pc.toNat ≤ 253 := by
  rcases fetchInstr_cases s with ⟨-, he⟩ | ⟨-, he⟩ | ⟨hpc, -⟩
  · cases he.symm.trans h
  · cases he.symm.trans h
  · exact hpc

/-- An instruction that takes a fault halts and holds `pc`. -/
theorem pc_held_of_exec_takeFault {c : ErrorCause} (hfault : exec i s = .next (takeFault c s))
    (h : exec i s = .next t) : t.run = .halted ∧ t.pc = s.pc := by
  cases hfault.symm.trans h
  exact ⟨rfl, rfl⟩

/-- From a `pc` that can be fetched at, an instruction halts and holds `pc`, or keeps the run state and selects the
next `pc` as R164 lists it. The bound on `pc` is what keeps the 9-bit increments from overflowing. -/
theorem exec_halts_or_nextPc (hpc : s.pc.toNat ≤ 253) (h : exec i s = .next t) :
    (t.run = .halted ∧ t.pc = s.pc) ∨ (t.run = s.run ∧ NextPc s t i) := by
  have hadd2 : (s.pc + 2).toNat = s.pc.toNat + 2 := by bv_omega
  have hadd3 : (s.pc + 3).toNat = s.pc.toNat + 3 := by bv_omega
  rcases exec_effect i s with ⟨-, hfault⟩ | ⟨-, heffect⟩
  · exact .inl (pc_held_of_exec_takeFault hfault h)
  cases i with
  | hlt =>
    cases heffect.symm.trans h
    exact .inl ⟨rfl, rfl⟩
  | ret =>
    obtain ⟨-, hfault⟩ | ⟨sp1, -, -, -, hok⟩ := heffect
    · exact .inl (pc_held_of_exec_takeFault hfault h)
    · cases hok.symm.trans h
      exact .inr ⟨rfl, _, s.memRead_byte _, rfl⟩
  | push a | pop a =>
    obtain ⟨ha, ⟨-, hfault⟩ | ⟨sp1, -, -, -, hok⟩⟩ := heffect
    · exact .inl (pc_held_of_exec_takeFault hfault h)
    · cases hok.symm.trans h
      exact .inr ⟨rfl, hadd2⟩
  | prn a =>
    obtain ⟨ha, hok⟩ := heffect
    cases hok.symm.trans h
    exact .inr ⟨rfl, hadd2⟩
  | call a =>
    obtain ⟨ha, ⟨-, hfault⟩ | ⟨sp1, -, -, -, hok⟩⟩ := heffect
    · exact .inl (pc_held_of_exec_takeFault hfault h)
    · cases hok.symm.trans h
      exact .inr ⟨rfl, ⟨a.toNat, ha⟩, rfl, rfl⟩
  | jmp a =>
    obtain ⟨ha, hok⟩ := heffect
    cases hok.symm.trans h
    exact .inr ⟨rfl, ⟨a.toNat, ha⟩, rfl, rfl⟩
  | jeq a | jne a =>
    obtain ⟨ha, ⟨-, htaken⟩ | ⟨-, hnot⟩⟩ := heffect
    · cases htaken.symm.trans h
      exact .inr ⟨rfl, .inr ⟨⟨a.toNat, ha⟩, rfl, rfl⟩⟩
    · cases hnot.symm.trans h
      exact .inr ⟨rfl, .inl hadd2⟩
  | ldi a v =>
    obtain ⟨ha, hok⟩ := heffect
    cases hok.symm.trans h
    exact .inr ⟨rfl, hadd3⟩
  | div a b =>
    obtain ⟨ha, hb, ⟨-, hfault⟩ | ⟨-, hok⟩⟩ := heffect
    · exact .inl (pc_held_of_exec_takeFault hfault h)
    · cases hok.symm.trans h
      exact .inr ⟨rfl, hadd3⟩
  | cmp a b | add a b | sub a b | mul a b | or a b | xor a b | shl a b | shr a b =>
    obtain ⟨ha, hb, hok⟩ := heffect
    cases hok.symm.trans h
    exact .inr ⟨rfl, hadd3⟩

/-- Settles O25: a fault of fetch or decode halts and holds `pc`; an instruction that was fetched stands at most at
253, so it halts with `pc` held, or selects the next `pc` and leaves the machine running. -/
theorem nextPcComesFromTheHandler : Obligations.NextPcComesFromTheHandler := by
  intro s t h
  obtain ⟨hrun, ⟨c, -, rfl⟩ | ⟨i, hfetch, hexec⟩⟩ := step_cases h
  · exact ⟨nofun, fun _ => rfl⟩
  have hpc := pc_le_of_fetchInstr hfetch
  obtain ⟨hhalted, hheld⟩ | ⟨hkept, hnext⟩ := exec_halts_or_nextPc hpc hexec
  · exact ⟨fun hgoes => (nomatch hhalted.symm.trans hgoes), fun _ => hheld⟩
  · have hgoes : t.run = .running := hkept.trans hrun
    exact ⟨fun _ => ⟨hpc, i, hfetch, hexec, hnext⟩, fun hhalted => (nomatch hgoes.symm.trans hhalted)⟩

end Sys2Proof.Machine
end

section
/-! Proofs about the encoding (30_encoding.md sections 1 to 4): an instruction is its opcode and the operand bytes its
format has, and both directions of the round trip are stated over that pair. -/

namespace Sys2Proof

/-- The identity of an instruction. -/
def Instr.opcode : Instr → Opcode
  | .hlt => .hlt
  | .ret => .ret
  | .push _ => .push
  | .pop _ => .pop
  | .prn _ => .prn
  | .call _ => .call
  | .jmp _ => .jmp
  | .jeq _ => .jeq
  | .jne _ => .jne
  | .ldi _ _ => .ldi
  | .add _ _ => .add
  | .sub _ _ => .sub
  | .mul _ _ => .mul
  | .div _ _ => .div
  | .cmp _ _ => .cmp
  | .or _ _ => .or
  | .xor _ _ => .xor
  | .shl _ _ => .shl
  | .shr _ _ => .shr

/-- The operand bytes of an instruction, an immediate among them, in encoding order. -/
def Instr.operandBytes : Instr → List Byte
  | .hlt | .ret => []
  | .push a | .pop a | .prn a | .call a | .jmp a | .jeq a | .jne a => [a]
  | .ldi a b | .add a b | .sub a b | .mul a b | .div a b | .cmp a b | .or a b | .xor a b | .shl a b | .shr a b =>
    [a, b]

theorem encode_eq_byte_cons (i : Instr) : encode i = i.opcode.byte :: i.operandBytes := by
  cases i <;> rfl

theorem Instr.length_operandBytes (i : Instr) : i.operandBytes.length = i.opcode.operandCount := by
  cases i <;> rfl

/-- The decoder's constructor rebuilds an instruction from its operand bytes and anything after them. -/
theorem Opcode.instr_operandBytes (i : Instr) (rest : List Byte) :
    i.opcode.instr ((i.operandBytes ++ rest).getD 0 0#8) ((i.operandBytes ++ rest).getD 1 0#8) = i := by
  cases i <;> rfl

theorem Opcode.opcode_instr (o : Opcode) (opA opB : Byte) : (o.instr opA opB).opcode = o := by
  cases o <;> rfl

theorem Opcode.operandBytes_instr (o : Opcode) (opA opB : Byte) :
    (o.instr opA opB).operandBytes = [opA, opB].take o.operandCount := by
  cases o <;> rfl

/-- The top two bits of the opcode byte are the operand count (30_encoding.md R81). -/
theorem Opcode.operandCount_eq_top_bits (o : Opcode) : o.operandCount = o.byte.toNat / 64 := by
  cases o <;> rfl

/-- Bit 5 of the opcode byte is the ALU flag (30_encoding.md R81). -/
theorem Opcode.isAlu_eq_bit5 (o : Opcode) : o.isAlu = o.byte.getLsbD 5 := by
  cases o <;> rfl

/-- Settles O1: both decoders find the opcode in the first byte, and the rest is how an instruction is rebuilt from its
operand bytes. -/
theorem decodeOfEncodeGivesInstruction : Obligations.DecodeOfEncodeGivesInstruction := by
  intro i tail x y
  rw [encode_eq_byte_cons, List.cons_append, List.cons_append]
  constructor
  · have hlen : ¬ (i.operandBytes ++ tail).length < i.opcode.operandCount := by
      rw [List.length_append, i.length_operandBytes]
      omega
    simp only [decodeBytes, decodeOpcode_byte, if_neg hlen, Opcode.instr_operandBytes,
      List.drop_left' i.length_operandBytes]
  · exact (decode_known (decodeOpcode_byte _) _ _).trans (congrArg _ (Opcode.instr_operandBytes i [x, y]))

/-- Settles O2: the instruction read has the opcode of the first byte and as many of the other two as its operand
count, which is the number in the top two bits. -/
theorem encodeOfDecodeGivesFetchedBytes : Obligations.EncodeOfDecodeGivesFetchedBytes := by
  intro op opA opB i h
  obtain ⟨o, ho, rfl⟩ := decode_cases h
  obtain rfl := byte_of_decodeOpcode ho
  have hlen : (o.instr opA opB).operandBytes.length = o.operandCount := by
    rw [Instr.length_operandBytes, Opcode.opcode_instr]
  rw [encode_eq_byte_cons, Opcode.opcode_instr, List.length_cons, hlen, List.take_succ_cons,
    Opcode.operandBytes_instr, Opcode.operandCount_eq_top_bits]
  exact ⟨rfl, Nat.add_comm _ _⟩

/-- Settles O3: each word is evaluated by the decoder. -/
theorem sampleWordsDecodeByTable : Obligations.SampleWordsDecodeByTable := by
  unfold Obligations.SampleWordsDecodeByTable
  decide

/-- Settles O4: all 256 bytes are looked up in the table. -/
theorem knownOpcodesAreTheNineteen : Obligations.KnownOpcodesAreTheNineteen := by
  unfold Obligations.KnownOpcodesAreTheNineteen
  decide

/-- Settles O5: a known byte is the byte of its identity, whose bits are read off the table. -/
theorem opcodeBitsGiveOperandCountAndAluFlag : Obligations.OpcodeBitsGiveOperandCountAndAluFlag := by
  intro op o h
  obtain rfl := byte_of_decodeOpcode h
  exact ⟨o.operandCount_eq_top_bits, o.isAlu_eq_bit5⟩

end Sys2Proof
end

section
/-! Proofs about the step, the faults and the end of a run (44_execution_cycle.md sections 1 and 2, 60_exceptions.md).
An instruction takes a fault it can raise, or it is HLT, or it leaves `run` and `err` alone. -/

namespace Sys2Proof.Machine

variable {s t : State} {i : Instr}

/-! ## Fetch -/

/-- The fetch answers three bytes exactly when the memory contract reads each of them. -/
theorem fetchBytes_eq_ok_iff {op opA opB : Byte} : fetchBytes s = .ok (op, opA, opB) ↔
    s.memRead s.pc.toNat = .ok op ∧ s.memRead ((s.pc.toNat : Int) + 1) = .ok opA ∧
      s.memRead ((s.pc.toNat : Int) + 2) = .ok opB := by
  constructor
  · intro h
    unfold fetchBytes at h
    split at h
    · cases h
    next h0 =>
      split at h
      · cases h
      next h1 =>
        split at h
        · cases h
        next h2 =>
          cases h
          exact ⟨h0, h1, h2⟩
  · rintro ⟨h0, h1, h2⟩
    simp only [fetchBytes, h0, h1, h2]

/-- What is fetched is HLT exactly when the opcode byte is HLT's. -/
theorem fetchInstr_eq_hlt_iff : fetchInstr s = .ok .hlt ↔
    ∃ op opA opB, fetchBytes s = .ok (op, opA, opB) ∧ decodeOpcode op = some .hlt := by
  constructor
  · intro h
    have hbytes := fetchBytes_ok (pc_le_of_fetchInstr h)
    refine ⟨_, _, _, hbytes, ?_⟩
    cases hd : decode (s.mem.peek s.pc.toNat) (s.mem.peek (s.pc.toNat + 1)) (s.mem.peek (s.pc.toNat + 2)) with
    | error r => cases (fetchInstr_of_undecoded hbytes hd).symm.trans h
    | ok i =>
      cases (fetchInstr_of_decoded hbytes hd).symm.trans h
      obtain ⟨o, ho, hi⟩ := decode_cases hd
      have hhlt : o = .hlt := (o.opcode_instr _ _).symm.trans (congrArg Instr.opcode hi.symm)
      rwa [hhlt] at ho
  · rintro ⟨op, opA, opB, hbytes, hop⟩
    exact fetchInstr_of_decoded hbytes (decode_known hop opA opB)

/-- The faults of fetch and decode. -/
theorem fetchInstr_error_cause {c : ErrorCause} (h : fetchInstr s = .error c) :
    c = .outOfBounds ∨ c = .unsupportedInstruction := by
  rcases fetchInstr_cases s with ⟨-, he⟩ | ⟨-, he⟩ | ⟨-, i, hi⟩
  · cases he.symm.trans h
    exact .inl rfl
  · cases he.symm.trans h
    exact .inr rfl
  · cases hi.symm.trans h

/-! ## The faults an instruction can raise -/

/-- The fault `c` is one that the instruction can raise in `s` (60_exceptions.md R181). -/
inductive Raises (s : State) : Instr → ErrorCause → Prop
  | badOperand {i : Instr} : i.wf = false → Raises s i .invalidRegister
  | zeroDivisor {a b : Byte} (hb : b.toNat < 8) : s.reg ⟨b.toNat, hb⟩ = 0x00#8 → Raises s (.div a b) .divisionByZero
  | pushAtZero {a : Byte} : s.reg 7 = 0x00#8 → Raises s (.push a) .outOfBounds
  | callAtZero {a : Byte} : s.reg 7 = 0x00#8 → Raises s (.call a) .outOfBounds
  | popAtTop {a : Byte} : poppedSp a s = 0xFF#8 → Raises s (.pop a) .outOfBounds
  | retAtTop : s.reg 7 = 0xFF#8 → Raises s .ret .outOfBounds

theorem Raises.ne_none {c : ErrorCause} (h : Raises s i c) : c ≠ .none := by
  cases h <;> nofun

theorem Raises.ne_unsupportedALUOperation {c : ErrorCause} (h : Raises s i c) : c ≠ .unsupportedALUOperation := by
  cases h <;> nofun

/-- Every instruction takes a fault it can raise, or is HLT, or completes with `run` and `err` as they were. -/
theorem exec_cases (i : Instr) (s : State) :
    (∃ c, Raises s i c ∧ exec i s = .next (takeFault c s)) ∨
    (i = .hlt ∧ exec i s = .next { s with run := .halted, err := .none }) ∨
    (i.wf = true ∧ ∃ t, exec i s = .next t ∧ ControlKept s t) := by
  rcases exec_effect i s with ⟨hbad, hfault⟩ | ⟨hwf, heffect⟩
  · exact .inl ⟨_, .badOperand hbad, hfault⟩
  cases i with
  | hlt => exact .inr (.inl ⟨rfl, heffect⟩)
  | ret =>
    obtain ⟨hfull, hfault⟩ | ⟨sp1, -, -, -, hok⟩ := heffect
    · exact .inl ⟨_, .retAtTop hfull, hfault⟩
    · exact .inr (.inr ⟨hwf, _, hok, rfl, rfl⟩)
  | push a =>
    obtain ⟨ha, ⟨hzero, hfault⟩ | ⟨sp1, -, -, -, hok⟩⟩ := heffect
    · exact .inl ⟨_, .pushAtZero hzero, hfault⟩
    · exact .inr (.inr ⟨hwf, _, hok, rfl, rfl⟩)
  | call a =>
    obtain ⟨ha, ⟨hzero, hfault⟩ | ⟨sp1, -, -, -, hok⟩⟩ := heffect
    · exact .inl ⟨_, .callAtZero hzero, hfault⟩
    · exact .inr (.inr ⟨hwf, _, hok, rfl, rfl⟩)
  | pop a =>
    obtain ⟨ha, ⟨hfull, hfault⟩ | ⟨sp1, -, -, -, hok⟩⟩ := heffect
    · exact .inl ⟨_, .popAtTop hfull, hfault⟩
    · exact .inr (.inr ⟨hwf, _, hok, rfl, rfl⟩)
  | jeq a | jne a =>
    obtain ⟨ha, ⟨-, hok⟩ | ⟨-, hok⟩⟩ := heffect
    · exact .inr (.inr ⟨hwf, _, hok, rfl, rfl⟩)
    · exact .inr (.inr ⟨hwf, _, hok, rfl, rfl⟩)
  | prn a | jmp a | ldi a v =>
    obtain ⟨ha, hok⟩ := heffect
    exact .inr (.inr ⟨hwf, _, hok, rfl, rfl⟩)
  | div a b =>
    obtain ⟨ha, hb, ⟨hz, hfault⟩ | ⟨-, hok⟩⟩ := heffect
    · exact .inl ⟨_, .zeroDivisor hb hz, hfault⟩
    · exact .inr (.inr ⟨hwf, _, hok, rfl, rfl⟩)
  | cmp a b | add a b | sub a b | mul a b | or a b | xor a b | shl a b | shr a b =>
    obtain ⟨ha, hb, hok⟩ := heffect
    exact .inr (.inr ⟨hwf, _, hok, rfl, rfl⟩)

/-- Every instruction answers a next state. -/
theorem exec_next (i : Instr) (s : State) : ∃ t, exec i s = .next t := by
  rcases exec_cases i s with ⟨c, -, h⟩ | ⟨-, h⟩ | ⟨-, t, h, -⟩ <;> exact ⟨_, h⟩

/-- A cause after an instruction is one it raised, unless it was there before or HLT has cleared it. -/
theorem exec_err (h : exec i s = .next t) : Raises s i t.err ∨ t.err = .none ∨ t.err = s.err := by
  rcases exec_cases i s with ⟨c, hc, hfault⟩ | ⟨-, hhlt⟩ | ⟨-, u, hok, -, herr⟩
  · cases hfault.symm.trans h
    exact .inl hc
  · cases hhlt.symm.trans h
    exact .inr (.inl rfl)
  · cases hok.symm.trans h
    exact .inr (.inr herr)

theorem raises_of_exec_err (hs : s.err = .none) (h : exec i s = .next t) (hne : t.err ≠ .none) :
    Raises s i t.err := by
  rcases exec_err h with hraises | hnone | hkept
  · exact hraises
  · exact absurd hnone hne
  · exact absurd (hkept.trans hs) hne

/-- A step takes a fault, in which case it did not fetch HLT, or it executes HLT, or it leaves `run` and `err`. -/
theorem step_outcome (h : step s = .next t) :
    (∃ c, t = takeFault c s ∧ c ≠ .none ∧ c ≠ .unsupportedALUOperation ∧ fetchInstr s ≠ .ok .hlt) ∨
    (fetchInstr s = .ok .hlt ∧ t = { s with run := .halted, err := .none }) ∨
    ControlKept s t := by
  obtain ⟨-, ⟨c, hc, rfl⟩ | ⟨i, hi, hexec⟩⟩ := step_cases h
  · have hnot : fetchInstr s ≠ .ok .hlt := fun hhlt => nomatch hc.symm.trans hhlt
    rcases fetchInstr_error_cause hc with rfl | rfl
    · exact .inl ⟨_, rfl, nofun, nofun, hnot⟩
    · exact .inl ⟨_, rfl, nofun, nofun, hnot⟩
  rcases exec_cases i s with ⟨c, hc, hfault⟩ | ⟨rfl, hhlt⟩ | ⟨-, u, hok, hkept⟩
  · cases hfault.symm.trans hexec
    refine .inl ⟨c, rfl, hc.ne_none, hc.ne_unsupportedALUOperation, fun hhlt => ?_⟩
    cases hi.symm.trans hhlt
    cases hc with | badOperand hwf => cases hwf
  · cases hhlt.symm.trans hexec
    exact .inr (.inl ⟨hi, rfl⟩)
  · cases hok.symm.trans hexec
    exact .inr (.inr hkept)

/-! ## The step -/

/-- Settles O6: three reads are a fetch, and a fetch that decodes is the step's instruction. -/
theorem stepRunsDecodedInstruction : Obligations.StepRunsDecodedInstruction :=
  fun _ _ _ _ _ hrun h0 h1 h2 hd =>
    step_of_fetchInstr hrun (fetchInstr_of_decoded (fetchBytes_eq_ok_iff.mpr ⟨h0, h1, h2⟩) hd)

/-- Settles O7: from 254 on one of the three addresses is out of range, and below it none is. -/
theorem fetchNeedsThreeCells : Obligations.FetchNeedsThreeCells := by
  intro s hrun
  constructor
  · intro hpc
    have hfetch : fetchInstr s = .error .outOfBounds := by
      rcases fetchInstr_cases s with ⟨-, he⟩ | ⟨hle, -⟩ | ⟨hle, -⟩
      · exact he
      · omega
      · omega
    exact step_of_fetch_error hrun hfetch
  · intro hpc
    have hbytes := fetchBytes_ok hpc
    obtain ⟨h0, h1, h2⟩ := fetchBytes_eq_ok_iff.mp hbytes
    exact ⟨_, _, _, h0, h1, h2, hbytes⟩

/-- Settles O8: bytes that do not decode raise `UnsupportedInstruction`, and taking a fault writes `run` and `err`. -/
theorem unknownOpcodeHaltsWithoutMutation : Obligations.UnknownOpcodeHaltsWithoutMutation := by
  intro s op opA opB hrun hbytes hop
  have hfetch := fetchInstr_of_undecoded hbytes (decode_unknown hop opA opB)
  exact ⟨_, step_of_fetch_error hrun hfetch, rfl, rfl, fun _ _ => rfl, fun _ => rfl, rfl, rfl, rfl⟩

/-- Settles O9: the step asks for the run state first. -/
theorem haltedStateHasNoStep : Obligations.HaltedStateHasNoStep := fun s hrun => by
  simp only [step, hrun]

/-- Settles O10: a fetch that fails takes a fault, and every instruction fetched answers a next state. -/
theorem stepIsTotalWhileRunning : Obligations.StepIsTotalWhileRunning := by
  intro s hrun
  have hnext : ∃ t, step s = .next t := by
    cases hfetch : fetchInstr s with
    | error c => exact ⟨_, step_of_fetch_error hrun hfetch⟩
    | ok i => exact step_of_fetchInstr hrun hfetch ▸ exec_next i s
  obtain ⟨t, ht⟩ := hnext
  refine ⟨t, ht, ?_⟩
  rcases step_outcome ht with ⟨c, rfl, -⟩ | ⟨-, rfl⟩ | ⟨hrun', herr⟩
  · exact .inr rfl
  · exact .inr rfl
  · exact .inl ⟨hrun'.trans hrun, herr⟩

/-- Settles O11: of the three outcomes of a step only a fault leaves an error where there was none. -/
theorem faultsArePrecise : Obligations.FaultsArePrecise := by
  intro s t hs h hne
  rcases step_outcome h with ⟨c, rfl, -⟩ | ⟨-, rfl⟩ | ⟨-, herr⟩
  · rfl
  · exact absurd rfl hne
  · exact absurd (herr.trans hs) hne

/-- Settles O12: a step that halts took a fault, whose cause is not None, or executed the HLT it fetched. -/
theorem endOfRunTellsHltFromFault : Obligations.EndOfRunTellsHltFromFault := by
  intro s t hs h hhalt
  refine ⟨(nextPcComesFromTheHandler s t h).2 hhalt, ?_, fun hend => hend.2, fun hne => ⟨hhalt, hne⟩⟩
  rw [← fetchInstr_eq_hlt_iff]
  rcases step_outcome h with ⟨c, rfl, hne, -, hnot⟩ | ⟨hhlt, rfl⟩ | ⟨hrun', -⟩
  · exact ⟨fun hend => absurd hend.2 hne, fun hhlt => absurd hhlt hnot⟩
  · exact ⟨fun _ => hhlt, fun _ => ⟨rfl, rfl⟩⟩
  · cases (step_cases h).1.symm.trans (hrun'.symm.trans hhalt)

/-! ## Which instruction raises which fault -/

/-- Settles O13: the register check is the first outcome of every instruction, and `InvalidRegister` is no other. -/
theorem badRegisterOperandRaisesInvalidRegister : Obligations.BadRegisterOperandRaisesInvalidRegister := by
  constructor
  · intro i s hbad
    rcases exec_effect i s with ⟨-, hfault⟩ | ⟨hwf, -⟩
    · exact hfault
    · cases hbad.symm.trans hwf
  · intro i s t hwf h herr
    rcases exec_err h with hraises | hnone | hkept
    · rw [herr] at hraises
      cases hraises with | badOperand hbad => cases hbad.symm.trans hwf
    · cases herr.symm.trans hnone
    · exact hkept.symm.trans herr

/-- Settles O14: with no error before, the cause is one the instruction can raise, and `Raises` lists those. -/
theorem faultCausesByInstruction : Obligations.FaultCausesByInstruction := by
  intro i s t hs h
  have hraises : ∀ {c}, t.err = c → c ≠ .none → Raises s i c := by
    rintro _ rfl hne
    exact raises_of_exec_err hs h hne
  refine ⟨fun he => ?_, fun he => ?_, fun he => ?_, fun he => ?_⟩
  · cases hraises he nofun with | zeroDivisor => exact ⟨_, _, rfl⟩
  · cases hraises he nofun with
    | pushAtZero hzero => exact .inl ⟨.inl ⟨_, rfl⟩, hzero⟩
    | callAtZero hzero => exact .inl ⟨.inr ⟨_, rfl⟩, hzero⟩
    | retAtTop hfull => exact .inr (.inl ⟨.inl rfl, hfull⟩)
    | @popAtTop a hfull =>
      by_cases h7 : a = 7#8
      · subst h7
        exact .inr (.inr ⟨rfl, (s.memRead_byte _).trans (congrArg _ hfull)⟩)
      · exact .inr (.inl ⟨.inr ⟨a, rfl, h7⟩, (if_neg h7).symm.trans hfull⟩)
  · cases hraises he nofun
  · cases hraises he nofun

/-- Settles O35: the zero divisor is found after the register check, and only DIV raises `DivisionByZero`. -/
theorem divByZeroHaltsWithoutMutation : Obligations.DivByZeroHaltsWithoutMutation := by
  refine ⟨fun opA opB s ha hb hz => ?_, fun opA opB s t hbad h => ?_, fun i s t hdiv h herr => ?_⟩
  · exact ⟨_, execDiv_zero ha hb hz, rfl, rfl, fun _ _ => rfl, fun _ => rfl, rfl, rfl, rfl⟩
  · cases (execDiv_invalid hbad).symm.trans h
    rfl
  · rcases exec_err h with hraises | hnone | hkept
    · rw [herr] at hraises
      cases hraises with | zeroDivisor => exact absurd rfl (hdiv _ _)
    · cases herr.symm.trans hnone
    · exact hkept.symm.trans herr

/-- Settles O49: HLT has one outcome. -/
theorem hltHaltsWithoutError : Obligations.HltHaltsWithoutError := fun _ => rfl

end Sys2Proof.Machine
end

section
/-! Proofs about memory (20_memory.md), reset and program load (10_state.md section 8, 44_execution_cycle.md section 3).
Two canonical memories are compared cell by cell; a load is an induction over the program. -/

namespace Sys2Proof.Machine

variable {s t : State}

/-! ## The canonical form -/

/-- A cell that does not read as unlisted is listed. -/
theorem Memory.mem_of_peek_ne {m : Memory} {a : Nat} (h : m.peek a ≠ Config.unwrittenCell) : (a, m.peek a) ∈ m := by
  induction m with
  | nil => exact absurd rfl h
  | cons d m ih =>
    unfold Memory.peek at h ⊢
    split
    next hd => exact List.mem_cons.mpr (.inl (Prod.ext hd.symm rfl))
    next hd =>
      rw [if_neg hd] at h
      exact List.mem_cons_of_mem _ (ih h)

/-- In a memory with rising addresses a listed cell reads as listed. -/
theorem Memory.peek_of_mem {m : Memory} (hm : m.Pairwise (fun c d => c.1 < d.1)) {c : Host.Cell} (hc : c ∈ m) :
    m.peek c.1 = c.2 := by
  induction m with
  | nil => cases hc
  | cons d m ih =>
    obtain ⟨hd, hm⟩ := List.pairwise_cons.mp hm
    rcases List.mem_cons.mp hc with rfl | hc
    · exact if_pos rfl
    · exact (if_neg (Nat.ne_of_lt (hd c hc))).trans (ih hm hc)

/-- What a canonical memory lists is what reads otherwise than as unlisted. -/
theorem Memory.mem_iff_peek {m : Memory} (hm : m.wf) {c : Host.Cell} :
    c ∈ m ↔ m.peek c.1 = c.2 ∧ c.2 ≠ Config.unwrittenCell := by
  constructor
  · intro hc
    exact ⟨Memory.peek_of_mem hm.1 hc, (hm.2 c hc).2⟩
  · rintro ⟨hpeek, hne⟩
    have hmem := Memory.mem_of_peek_ne (hpeek ▸ hne)
    rwa [hpeek] at hmem

/-- A canonical memory lists no address above 255. -/
theorem Memory.peek_of_memSize_le {m : Memory} (hm : m.wf) {a : Nat} (ha : Config.memSize ≤ a) :
    m.peek a = Config.unwrittenCell := by
  by_contra hne
  have hlt := (hm.2 _ (Memory.mem_of_peek_ne hne)).1
  exact absurd hlt (Nat.not_lt.mpr ha)

/-- States that read the same at every address have the same cells. -/
theorem MemKept.peek_eq (h : MemKept s t) {a : Nat} (ha : a < 256) : t.mem.peek a = s.mem.peek a := by
  have hread := h a
  rw [State.memRead_of_inBounds _ (inBounds_of_lt ha), State.memRead_of_inBounds _ (inBounds_of_lt ha)] at hread
  exact Except.ok.inj hread

theorem memKept_of_mem_eq (h : t.mem = s.mem) : MemKept s t := State.memRead_congr h

/-- Settles O20: rising lists with the same members are equal, and a member is what the reads say it is. -/
theorem memoriesThatReadTheSameAreEqual : Obligations.MemoriesThatReadTheSameAreEqual := by
  intro s t hs ht h
  have hpeek : ∀ a, t.mem.peek a = s.mem.peek a := by
    intro a
    by_cases ha : a < 256
    · exact h.peek_eq ha
    · have ha : Config.memSize ≤ a := Nat.le_of_not_lt ha
      rw [Memory.peek_of_memSize_le ht ha, Memory.peek_of_memSize_le hs ha]
  have hanti : Std.Antisymm fun c d : Host.Cell => c.1 < d.1 := ⟨fun _ _ hcd hdc => absurd hdc (Nat.lt_asymm hcd)⟩
  have hirrefl : Std.Irrefl fun c d : Host.Cell => c.1 < d.1 := ⟨fun _ => Nat.lt_irrefl _⟩
  refine ht.1.eq_of_mem_iff hs.1 fun c => ?_
  rw [Memory.mem_iff_peek ht, Memory.mem_iff_peek hs, hpeek]

/-! ## Reset -/

theorem reset_memRead {addr : Int} (h : inBounds addr) : State.reset.memRead addr = .ok 0x00#8 :=
  State.memRead_of_inBounds _ h

/-- Settles O15: reset does not look at the state it is applied in. -/
theorem resetPutsEveryItemAtItsResetValue : Obligations.ResetPutsEveryItemAtItsResetValue := by
  intro s
  have hregs : ∀ r : Fin 8, State.reset.reg r = if r = 7 then 0xF4#8 else 0x00#8 := by decide
  exact ⟨rfl, fun addr hlo hhi => reset_memRead ⟨hlo, hhi⟩, hregs, rfl, rfl, rfl, rfl, rfl⟩

/-- Settles O16: memory is empty, `pc` is 0 and there is no error. -/
theorem resetMeetsInvariant : Obligations.ResetMeetsInvariant :=
  ⟨reset_mem_wf, Nat.zero_le _, fun _ => rfl, nofun⟩

/-! ## Program load -/

/-- A load that fits changes memory alone, keeps it canonical, and puts byte `k` of the program in cell
`addr + k`. -/
theorem loadFrom_of_fits {program : List Byte} {addr : Nat} (hfit : addr + program.length ≤ 256) (s : State) :
    ∃ m, loadFrom s addr program = .ok { s with mem := m } ∧ (s.mem.wf → m.wf) ∧
      (∀ n < addr, m.peek n = s.mem.peek n) ∧
      ∀ k, m.peek (addr + k) = program.getD k (s.mem.peek (addr + k)) := by
  induction program generalizing addr s with
  | nil => exact ⟨s.mem, rfl, id, fun _ _ => rfl, fun _ => rfl⟩
  | cons v program ih =>
    rw [List.length_cons] at hfit
    have haddr : addr < 256 := by omega
    obtain ⟨m, hload, hwf, hbelow, hcells⟩ := ih (addr := addr + 1) (by omega) (s.setCell addr v)
    refine ⟨m, ?_, fun hs => hwf (Memory.poke_wf hs haddr v), fun n hn => ?_, fun k => ?_⟩
    · simp only [loadFrom, s.memWrite_of_inBounds v (inBounds_of_lt haddr), Int.toNat_natCast]
      exact hload
    · rw [hbelow n (by omega), State.setCell_mem, Memory.peek_poke_ne _ _ (Nat.ne_of_lt hn)]
    · cases k with
      | zero => rw [Nat.add_zero, hbelow addr (Nat.lt_succ_self _), State.setCell_mem, Memory.peek_poke_same,
          List.getD_cons_zero]
      | succ k =>
        have hne : addr + (k + 1) ≠ addr := by omega
        rw [← Nat.add_assoc, Nat.add_right_comm addr k 1, hcells k, State.setCell_mem,
          Nat.add_right_comm addr 1 k, Nat.add_assoc, Memory.peek_poke_ne _ _ hne, List.getD_cons_succ]

/-- A load that reaches beyond cell 255 fails. -/
theorem loadFrom_of_overflows {program : List Byte} {addr : Nat} (haddr : addr ≤ 256)
    (hlong : 256 < addr + program.length) (s : State) : ∃ c, loadFrom s addr program = .error c := by
  induction program generalizing addr s with
  | nil => exact absurd hlong (Nat.not_lt.mpr haddr)
  | cons v program ih =>
    rw [List.length_cons] at hlong
    by_cases hlast : addr = 256
    · have hout : ¬ inBounds (addr : Int) := by simp only [inBounds]; omega
      exact ⟨.outOfBounds, by simp only [loadFrom, s.memWrite_of_not_inBounds v hout]⟩
    · have hin : inBounds (addr : Int) := inBounds_of_lt (by omega)
      obtain ⟨c, hc⟩ := ih (addr := addr + 1) (by omega) (by omega) (s.setCell addr v)
      refine ⟨c, ?_⟩
      simp only [loadFrom, s.memWrite_of_inBounds v hin, Int.toNat_natCast]
      exact hc

/-- A load of one more byte writes it and goes on in the next cell. -/
theorem loadFrom_cons_eq_ok_iff {addr : Nat} {v : Byte} {rest : List Byte} : loadFrom s addr (v :: rest) = .ok t ↔
    ∃ u, s.memWrite addr v = .ok u ∧ loadFrom u (addr + 1) rest = .ok t := by
  rw [loadFrom]
  cases s.memWrite addr v with
  | error c => exact ⟨nofun, fun ⟨_, hu, _⟩ => nomatch hu⟩
  | ok u => exact ⟨fun h => ⟨u, rfl, h⟩, fun ⟨_, hu, h⟩ => by cases hu; exact h⟩

/-- Settles O18: a program of at most 256 bytes fits from cell 0 and changes memory alone; a longer one overflows. -/
theorem launchPlacesProgramFromZero : Obligations.LaunchPlacesProgramFromZero := by
  intro program
  constructor
  · intro hlen
    obtain ⟨m, hload, hwf, -, hcells⟩ := loadFrom_of_fits (program := program) (addr := 0) (by omega) State.reset
    have hlaunch : launch program = some { State.reset with mem := m } := by
      rw [launch, loadProgram, hload]
      rfl
    refine ⟨_, hlaunch, fun n hn => ?_, fun _ _ => rfl, rfl, rfl, rfl, rfl, rfl,
      hwf reset_mem_wf, Nat.zero_le _, fun _ => rfl, nofun⟩
    have hcell := hcells n
    rw [Nat.zero_add] at hcell
    exact (State.memRead_of_inBounds _ (inBounds_of_lt hn)).trans (congrArg _ hcell)
  · intro hlen
    obtain ⟨c, hc⟩ := loadFrom_of_overflows (program := program) (addr := 0) (by omega) (by omega) State.reset
    rw [launch, loadProgram, hc]
    rfl

end Sys2Proof.Machine
end

section
/-! Proofs about what an instruction does not touch: registers outside the table's columns (10_state.md R34), the
console log (10_state.md R29) and memory (20_memory.md section 2). A change of state that an instruction neither reads
nor overwrites commutes with it; each frame is the case of a change that leaves the first state as it is. -/

namespace Sys2Proof.Machine

variable {s t : State} {i : Instr} {φ : State → State}

/-! ## Changes of state that commute with an instruction -/

/-- An answer with `φ` applied to its next state. -/
def mapNext (φ : State → State) : Host.Outcome State Fault Refusal → Host.Outcome State Fault Refusal
  | .next t => .next (φ t)
  | .fault r => .fault r
  | .refused r => .refused r

/-- `φ` changes nothing that `i` reads in `s` and commutes with every operation that `i` is built from. -/
structure Commutes (φ : State → State) (i : Instr) (s : State) : Prop where
  mem_eq : (φ s).mem = s.mem
  fl_eq : (φ s).fl = s.fl
  returnAddress_eq : returnAddress (φ s) = returnAddress s
  reg_eq : ∀ r : Fin 8, r.val ∈ regsRead i → (φ s).reg r = s.reg r
  setReg : ∀ (u : State) (r : Fin 8) (v : Byte), r.val ∈ regsWritten i → (φ u).setReg r v = φ (u.setReg r v)
  setCell : ((∃ a, i = .push a) ∨ ∃ a, i = .call a) →
    ∀ (u : State) (n : Nat) (v : Byte), (φ u).setCell n v = φ (u.setCell n v)
  emit : (∃ a, i = .prn a) → ∀ (u : State) (v : Byte), (φ u).emit v = φ (u.emit v)
  setFlag : ∀ (u : State) (f : Flag), (φ u).setFlag f = φ (u.setFlag f)
  advancePc : ∀ (u : State) (n : PcWord), (φ u).advancePc n = φ (u.advancePc n)
  jumpTo : ∀ (u : State) (v : Byte), (φ u).jumpTo v = φ (u.jumpTo v)
  takeFault : ∀ (u : State) (c : ErrorCause), takeFault c (φ u) = φ (takeFault c u)

/-- The common ALU rule commutes with such a change. -/
theorem aluBinary_commutes (h : Commutes φ i s) {a b : Byte} (hreads : regsRead i = [a.toNat, b.toNat])
    (hwrites : regsWritten i = [a.toNat]) (g : Byte → Byte → Except ErrorCause Byte) :
    aluBinary g a b (φ s) = mapNext φ (aluBinary g a b s) := by
  by_cases hops : a.toNat < 8 ∧ b.toNat < 8
  · obtain ⟨ha, hb⟩ := hops
    have hva : (φ s).reg ⟨a.toNat, ha⟩ = s.reg ⟨a.toNat, ha⟩ := h.reg_eq _ (by simp [hreads])
    have hvb : (φ s).reg ⟨b.toNat, hb⟩ = s.reg ⟨b.toNat, hb⟩ := h.reg_eq _ (by simp [hreads])
    have hset : ∀ v, (φ s).setReg ⟨a.toNat, ha⟩ v = φ (s.setReg ⟨a.toNat, ha⟩ v) :=
      fun v => h.setReg s _ v (by simp [hwrites])
    cases hg : g (s.reg ⟨a.toNat, ha⟩) (s.reg ⟨b.toNat, hb⟩) with
    | error c =>
      rw [aluBinary_raises ha hb hg, aluBinary_raises (s := φ s) ha hb (by rw [hva, hvb, hg]), h.takeFault]
      rfl
    | ok r =>
      rw [aluBinary_ok ha hb hg, aluBinary_ok (s := φ s) ha hb (by rw [hva, hvb, hg]), hset, h.advancePc]
      rfl
  · have hbad : 8 ≤ a.toNat ∨ 8 ≤ b.toNat := by omega
    rw [aluBinary_invalid hbad, aluBinary_invalid hbad, h.takeFault]
    rfl

/-- The common jump rule commutes with such a change. -/
theorem jumpIf_commutes (h : Commutes φ i s) {a : Byte} (hreads : regsRead i = [a.toNat]) (taken : Bool) :
    jumpIf taken a (φ s) = mapNext φ (jumpIf taken a s) := by
  rcases chkreg_cases a with ⟨ha, -⟩ | ⟨ha, -⟩
  · have hva : (φ s).reg ⟨a.toNat, ha⟩ = s.reg ⟨a.toNat, ha⟩ := h.reg_eq _ (by simp [hreads])
    rw [jumpIf_ok ha, jumpIf_ok ha, hva]
    cases taken with
    | false => exact congrArg _ (h.advancePc s 2)
    | true => exact congrArg _ (h.jumpTo s _)
  · rw [jumpIf_invalid ha, jumpIf_invalid ha, h.takeFault]
    rfl

/-- An instruction answers to `φ s` what it answers to `s` with `φ` applied, the same fault or the same next state. -/
theorem exec_commutes (h : Commutes φ i s) : exec i (φ s) = mapNext φ (exec i s) := by
  rcases exec_effect i s with ⟨hbad, hfault⟩ | ⟨-, heffect⟩
  · rw [hfault, badRegisterOperandRaisesInvalidRegister.1 i (φ s) hbad]
    exact congrArg _ (h.takeFault s _)
  cases i with
  | hlt => exact congrArg _ (h.takeFault s .none)
  | ret =>
    have hsp : (φ s).reg 7 = s.reg 7 := h.reg_eq 7 (by simp [regsRead])
    obtain ⟨hfull, hfault⟩ | ⟨sp1, hinc, -, -, hok⟩ := heffect
    · rw [hfault]
      exact (execRet_full (hsp.trans hfull)).trans (congrArg _ (h.takeFault s _))
    · rw [hok]
      refine (execRet_ok rfl ((congrArg spInc hsp).trans hinc)).trans ?_
      rw [h.mem_eq, hsp, h.setReg s 7 sp1 (by simp [regsWritten]), h.jumpTo]
      rfl
  | push a =>
    have hsp : (φ s).reg 7 = s.reg 7 := h.reg_eq 7 (by simp [regsRead])
    obtain ⟨ha, ⟨hzero, hfault⟩ | ⟨sp1, -, hdec, -, hok⟩⟩ := heffect
    · rw [hfault]
      exact (execPush_zero ha (hsp.trans hzero)).trans (congrArg _ (h.takeFault s _))
    · rw [hok]
      refine (execPush_ok ha ((congrArg spDec hsp).trans hdec)).trans ?_
      rw [State.reg_operand_setReg_sp, State.reg_operand_setReg_sp, h.reg_eq ⟨a.toNat, ha⟩ (by simp [regsRead]),
        h.setReg s 7 sp1 (by simp [regsWritten]), h.setCell (.inl ⟨a, rfl⟩), h.advancePc]
      rfl
  | call a =>
    have hsp : (φ s).reg 7 = s.reg 7 := h.reg_eq 7 (by simp [regsRead])
    obtain ⟨ha, ⟨hzero, hfault⟩ | ⟨sp1, -, hdec, -, hok⟩⟩ := heffect
    · rw [hfault]
      exact (execCall_zero ha (hsp.trans hzero)).trans (congrArg _ (h.takeFault s _))
    · rw [hok]
      refine (execCall_ok ha ((congrArg spDec hsp).trans hdec)).trans ?_
      rw [State.reg_operand_setReg_sp, State.reg_operand_setReg_sp, h.reg_eq ⟨a.toNat, ha⟩ (by simp [regsRead]),
        h.returnAddress_eq, h.setReg s 7 sp1 (by simp [regsWritten]), h.setCell (.inr ⟨a, rfl⟩), h.jumpTo]
      rfl
  | pop a =>
    have hsp : (φ s).reg 7 = s.reg 7 := h.reg_eq 7 (by simp [regsRead])
    obtain ⟨ha, houtcome⟩ := heffect
    have hpeek : (φ s).mem.peek ((φ s).reg 7).toNat = s.mem.peek (s.reg 7).toNat := by rw [h.mem_eq, hsp]
    have hpopped : ((φ s).setReg ⟨a.toNat, ha⟩ (s.mem.peek (s.reg 7).toNat)).reg 7 = poppedSp a s := by
      rw [State.reg_sp_setReg_operand, hsp]
      rfl
    obtain ⟨hfull, hfault⟩ | ⟨sp1, -, hinc, -, hok⟩ := houtcome
    · rw [hfault]
      exact (execPop_full ha hpeek (hpopped.trans hfull)).trans (congrArg _ (h.takeFault s _))
    · rw [hok]
      refine (execPop_ok ha hpeek ((congrArg spInc hpopped).trans hinc)).trans ?_
      rw [h.setReg s _ _ (by simp [regsWritten]), h.setReg _ 7 sp1 (by simp [regsWritten]), h.advancePc]
      rfl
  | prn a =>
    obtain ⟨ha, hok⟩ := heffect
    rw [hok]
    refine (execPrn_ok ha).trans ?_
    rw [h.reg_eq ⟨a.toNat, ha⟩ (by simp [regsRead]), h.emit ⟨a, rfl⟩, h.advancePc]
    rfl
  | ldi a v =>
    obtain ⟨ha, hok⟩ := heffect
    rw [hok]
    refine (execLdi_ok ha).trans ?_
    rw [h.setReg s _ v (by simp [regsWritten]), h.advancePc]
    rfl
  | cmp a b =>
    obtain ⟨ha, hb, hok⟩ := heffect
    rw [hok]
    refine (execCmp_ok ha hb).trans ?_
    rw [h.reg_eq ⟨a.toNat, ha⟩ (by simp [regsRead]), h.reg_eq ⟨b.toNat, hb⟩ (by simp [regsRead]), h.setFlag,
      h.advancePc]
    rfl
  | jmp a => exact jumpIf_commutes h rfl true
  | jeq a => exact (congrArg (jumpIf · a (φ s)) (congrArg Flag.isEq h.fl_eq)).trans (jumpIf_commutes h rfl _)
  | jne a => exact (congrArg (jumpIf · a (φ s)) (congrArg (!Flag.isEq ·) h.fl_eq)).trans (jumpIf_commutes h rfl _)
  | add a b | sub a b | mul a b | div a b | or a b | xor a b | shl a b | shr a b =>
    simp only [exec, execAdd, execSub, execMul, execDiv, execOr, execXor, execShl, execShr,
      aluBinary_commutes h rfl rfl]

theorem exec_commutes_next (hφ : Commutes φ i s) (h : exec i s = .next t) : exec i (φ s) = .next (φ t) :=
  (exec_commutes hφ).trans (congrArg (mapNext φ) h)

/-- A commuting change that leaves `s` as it is leaves every next state of `s` as it is. -/
theorem exec_next_fixed (hφ : Commutes φ i s) (hs : φ s = s) (h : exec i s = .next t) : φ t = t := by
  have hnext := exec_commutes_next hφ h
  rw [hs, h] at hnext
  injection hnext with ht
  exact ht.symm

/-! ## Registers -/

/-- Writes to two registers can be exchanged. -/
theorem State.setReg_comm (s : State) {q r : Fin 8} (h : q ≠ r) (v w : Byte) :
    (s.setReg q v).setReg r w = (s.setReg r w).setReg q v := by
  have hval : q.val ≠ r.val := fun e => h (Fin.ext e)
  simp only [State.setReg, Vector.set_comm _ _ hval]

/-- Of two writes to one register the second counts. -/
theorem State.setReg_setReg (s : State) (r : Fin 8) (v w : Byte) : (s.setReg r v).setReg r w = s.setReg r w := by
  simp only [State.setReg, Vector.set_set]

/-- Writing to a register what it holds changes nothing. -/
theorem State.setReg_reg (s : State) (r : Fin 8) : s.setReg r (s.reg r) = s := by
  have hregs : s.regs.set r (s.reg r) = s.regs := Vector.set_getElem_self r.isLt
  simp only [State.setReg, hregs]

/-- A write to a register that `i` does not write commutes with `i` when it changes nothing `i` reads. -/
theorem commutes_setReg {q : Fin 8} {v : Byte}
    (hread : ∀ r : Fin 8, r.val ∈ regsRead i → (s.setReg q v).reg r = s.reg r) (hwrite : q.val ∉ regsWritten i) :
    Commutes (·.setReg q v) i s where
  mem_eq := rfl
  fl_eq := rfl
  returnAddress_eq := rfl
  reg_eq := hread
  setReg u r w hr := u.setReg_comm (fun e : q = r => hwrite (e ▸ hr)) v w
  setCell _ _ _ _ := rfl
  emit _ _ _ := rfl
  setFlag _ _ := rfl
  advancePc _ _ := rfl
  jumpTo _ _ := rfl
  takeFault _ _ := rfl

/-- A register that `i` does not write keeps its value: writing that value commutes with `i`. -/
theorem exec_reg_of_not_written {q : Fin 8} (hq : q.val ∉ regsWritten i) (h : exec i s = .next t) :
    t.reg q = s.reg q := by
  have hsame : s.setReg q (s.reg q) = s := s.setReg_reg q
  have hfixed := exec_next_fixed (commutes_setReg (fun _ _ => by rw [hsame]) hq) hsame h
  exact (congrArg (State.reg · q) hfixed).symm.trans (t.reg_setReg_same q _)

/-- A register that `i` neither reads nor writes only carries its value along. -/
theorem exec_setReg_of_unused {q : Fin 8} (v : Byte) (hread : q.val ∉ regsRead i) (hwrite : q.val ∉ regsWritten i)
    (h : exec i s = .next t) : exec i (s.setReg q v) = .next (t.setReg q v) :=
  exec_commutes_next (commutes_setReg (fun r hr => s.reg_setReg_ne v (fun e : r = q => hread (e ▸ hr))) hwrite) h

/-- A register that `i` writes but does not read (LDI's, POP's) is overwritten whatever it held, unless POP faults. -/
theorem exec_setReg_of_overwritten {q : Fin 8} (v : Byte) (hread : q.val ∉ regsRead i) (hwrite : q.val ∈ regsWritten i)
    (h : exec i s = .next t) :
    exec i (s.setReg q v) = .next t ∨ (t.pc = s.pc ∧ exec i (s.setReg q v) = .next (t.setReg q v)) := by
  cases i with
  | ldi a w =>
    have ha : q.val = a.toNat := List.mem_singleton.mp hwrite
    have hlt : a.toNat < 8 := ha ▸ q.isLt
    obtain rfl : q = ⟨a.toNat, hlt⟩ := Fin.ext ha
    cases (execLdi_ok hlt).symm.trans h
    exact .inl ((execLdi_ok hlt).trans (by rw [State.setReg_setReg]))
  | pop a =>
    have hne : q.val ≠ 7 := fun e => hread (List.mem_singleton.mpr e)
    have ha : q.val = a.toNat := by simpa [regsWritten, hne] using hwrite
    have hlt : a.toNat < 8 := ha ▸ q.isLt
    obtain rfl : q = ⟨a.toNat, hlt⟩ := Fin.ext ha
    have hsp : (s.setReg ⟨a.toNat, hlt⟩ v).reg 7 = s.reg 7 := s.reg_setReg_ne v (fun e => hne (congrArg Fin.val e.symm))
    have hpeek : (s.setReg ⟨a.toNat, hlt⟩ v).mem.peek ((s.setReg ⟨a.toNat, hlt⟩ v).reg 7).toNat =
        s.mem.peek (s.reg 7).toNat := by rw [hsp, State.setReg_mem]
    rcases spInc_cases ((s.setReg ⟨a.toNat, hlt⟩ (s.mem.peek (s.reg 7).toNat)).reg 7) with
      ⟨hfull, -⟩ | ⟨-, hinc, -⟩
    · cases (execPop_full hlt rfl hfull).symm.trans h
      exact .inr ⟨rfl, execPop_full hlt hpeek (by rw [State.setReg_setReg]; exact hfull)⟩
    · cases (execPop_ok hlt rfl hinc).symm.trans h
      refine .inl ((execPop_ok hlt hpeek (by rw [State.setReg_setReg]; exact hinc)).trans ?_)
      rw [State.setReg_setReg]
  | hlt | prn a | jmp a | jeq a | jne a | cmp a b => cases hwrite
  | push a | call a => exact absurd (List.mem_cons_of_mem _ hwrite) hread
  | ret => exact absurd hwrite hread
  | add a b | sub a b | mul a b | div a b | or a b | xor a b | shl a b | shr a b =>
    exact absurd (List.mem_cons.mpr (.inl (List.mem_singleton.mp hwrite))) hread

/-- A jump that is not taken does not use its register. -/
theorem jumpIf_false_setReg {a : Byte} (q : Fin 8) (v : Byte) (h : jumpIf false a s = .next t) :
    jumpIf false a (s.setReg q v) = .next (t.setReg q v) := by
  rcases chkreg_cases a with ⟨ha, -⟩ | ⟨ha, -⟩
  · cases (jumpIf_ok ha).symm.trans h
    exact jumpIf_ok ha
  · cases (jumpIf_invalid ha).symm.trans h
    exact jumpIf_invalid ha

/-- Settles O24: a write to a register the instruction does not use commutes with it; a register it writes without
reading is overwritten; and a jump that is not taken only checks its operand. -/
theorem registersReadAndWrittenByTable : Obligations.RegistersReadAndWrittenByTable := by
  refine ⟨fun i s t q h hq => exec_reg_of_not_written hq h, fun i s t q v h hread => ?_,
    fun i s t q v hnot h => ?_⟩
  · by_cases hwrite : q.val ∈ regsWritten i
    · rcases exec_setReg_of_overwritten v hread hwrite h with hsame | ⟨hpc, hcarried⟩
      · exact ⟨t, hsame, fun _ _ => rfl, fun _ => rfl, rfl, rfl, ⟨rfl, rfl⟩, rfl,
          fun hnot => absurd hwrite hnot, fun _ _ => rfl⟩
      · exact ⟨_, hcarried, regsKeptBut_setReg t q v, fun _ => rfl, rfl, rfl, ⟨rfl, rfl⟩, rfl,
          fun hnot => absurd hwrite hnot, fun _ hmoved => absurd hpc hmoved⟩
    · exact ⟨_, exec_setReg_of_unused v hread hwrite h, regsKeptBut_setReg t q v, fun _ => rfl, rfl, rfl, ⟨rfl, rfl⟩,
        rfl, fun _ => t.reg_setReg_same q v, fun hmem => absurd hmem hwrite⟩
  · rcases hnot with ⟨⟨a, rfl⟩, hne⟩ | ⟨⟨a, rfl⟩, heq⟩
    · have hfl : s.fl.isEq = false := beq_false_of_ne hne
      exact (congrArg (jumpIf · a _) hfl).trans
        (jumpIf_false_setReg q v ((congrArg (jumpIf · a s) hfl).symm.trans h))
    · have hfl : (!s.fl.isEq) = false := by rw [heq]; rfl
      exact (congrArg (jumpIf · a _) hfl).trans
        (jumpIf_false_setReg q v ((congrArg (jumpIf · a s) hfl).symm.trans h))

/-! ## The console log -/

/-- `s` with the bytes of `p` before those of its log. -/
def State.prependOut (s : State) (p : List Byte) : State := { s with out := p ++ s.out }

/-- What stands in the log before an instruction runs commutes with it: it is only appended to. -/
theorem commutes_prependOut (i : Instr) (s : State) (p : List Byte) : Commutes (·.prependOut p) i s where
  mem_eq := rfl
  fl_eq := rfl
  returnAddress_eq := rfl
  reg_eq _ _ := rfl
  setReg _ _ _ _ := rfl
  setCell _ _ _ _ := rfl
  emit _ u v := by simp only [State.emit, State.prependOut, List.append_assoc]
  setFlag _ _ := rfl
  advancePc _ _ := rfl
  jumpTo _ _ := rfl
  takeFault _ _ := rfl

/-- Putting a fixed log in place commutes with every instruction but PRN. -/
theorem commutes_setOut (hprn : ∀ a, i ≠ .prn a) (s : State) (log : List Byte) :
    Commutes (fun u => { u with out := log }) i s where
  mem_eq := rfl
  fl_eq := rfl
  returnAddress_eq := rfl
  reg_eq _ _ := rfl
  setReg _ _ _ _ := rfl
  setCell _ _ _ _ := rfl
  emit h _ _ := absurd h.choose_spec (hprn _)
  setFlag _ _ := rfl
  advancePc _ _ := rfl
  jumpTo _ _ := rfl
  takeFault _ _ := rfl

theorem exec_out_of_ne_prn (hprn : ∀ a, i ≠ .prn a) (h : exec i s = .next t) : t.out = s.out :=
  (congrArg State.out (exec_next_fixed (commutes_setOut hprn s s.out) rfl h)).symm

/-- PRN appends one byte, or none when its operand names no register. -/
theorem exec_prn_out {a : Byte} (h : exec (.prn a) s = .next t) : ∃ w, t.out = s.out ++ w ∧ w.length ≤ 1 := by
  rcases chkreg_cases a with ⟨ha, -⟩ | ⟨ha, -⟩
  · cases (execPrn_ok ha).symm.trans h
    exact ⟨_, rfl, Nat.le_refl _⟩
  · cases (execPrn_invalid ha).symm.trans h
    exact ⟨[], (List.append_nil _).symm, Nat.zero_le _⟩

/-- An instruction appends at most one byte to the log. -/
theorem exec_out (h : exec i s = .next t) : ∃ w, t.out = s.out ++ w ∧ w.length ≤ 1 := by
  by_cases hprn : ∃ a, i = .prn a
  · obtain ⟨a, rfl⟩ := hprn
    exact exec_prn_out h
  · exact ⟨[], (exec_out_of_ne_prn (fun a e => hprn ⟨a, e⟩) h).trans (List.append_nil _).symm, Nat.zero_le _⟩

/-- What an instruction appends does not depend on the log: it is what it appends to an empty one. -/
theorem exec_with_out (h : exec i s = .next t) (log : List Byte) :
    ∃ w, t.out = s.out ++ w ∧ exec i { s with out := log } = .next { t with out := log ++ w } := by
  obtain ⟨u, hu⟩ := exec_next i { s with out := [] }
  have happend : ∀ p, exec i { s with out := p } = .next (u.prependOut p) := fun p => by
    rw [← exec_commutes_next (commutes_prependOut i _ p) hu, State.prependOut, List.append_nil]
  cases (happend s.out).symm.trans h
  exact ⟨u.out, rfl, happend log⟩

/-- Settles O26: a log put in place commutes with every instruction but PRN, and a log put before the present one
commutes with all of them. -/
theorem consoleLogOnlyGrowsByPrn : Obligations.ConsoleLogOnlyGrowsByPrn := by
  refine ⟨fun _ _ _ => exec_out_of_ne_prn, fun s t h => ?_, fun _ _ _ log h => exec_with_out h log⟩
  obtain ⟨-, ⟨c, -, rfl⟩ | ⟨i, -, hexec⟩⟩ := step_cases h
  · exact ⟨[], (List.append_nil _).symm, Nat.zero_le _⟩
  · exact exec_out hexec

/-! ## Memory -/

/-- Putting a fixed memory in place commutes with every instruction but PUSH and CALL. -/
theorem commutes_setMem (hpush : ∀ a, i ≠ .push a) (hcall : ∀ a, i ≠ .call a) (s : State) :
    Commutes (fun u => { u with mem := s.mem }) i s where
  mem_eq := rfl
  fl_eq := rfl
  returnAddress_eq := rfl
  reg_eq _ _ := rfl
  setReg _ _ _ _ := rfl
  setCell h := h.elim (fun ⟨a, e⟩ => absurd e (hpush a)) (fun ⟨a, e⟩ => absurd e (hcall a))
  emit _ _ _ := rfl
  setFlag _ _ := rfl
  advancePc _ _ := rfl
  jumpTo _ _ := rfl
  takeFault _ _ := rfl

theorem exec_mem_of_ne_push_call (hpush : ∀ a, i ≠ .push a) (hcall : ∀ a, i ≠ .call a) (h : exec i s = .next t) :
    t.mem = s.mem :=
  (congrArg State.mem (exec_next_fixed (commutes_setMem hpush hcall s) rfl h)).symm

/-- PUSH and CALL fault and keep memory, or write one cell, at the checked decrement of register 7. -/
theorem exec_mem_of_push_or_call (hi : (∃ a, i = .push a) ∨ ∃ a, i = .call a) (h : exec i s = .next t) :
    ((i.wf = false ∨ spDec (s.reg 7) = .error .outOfBounds) ∧ t.mem = s.mem) ∨
    (i.wf = true ∧ ∃ sp1 v, spDec (s.reg 7) = .ok sp1 ∧ t.mem = s.mem.poke sp1.toNat v) := by
  rcases exec_effect i s with ⟨hbad, hfault⟩ | ⟨hwf, heffect⟩
  · cases hfault.symm.trans h
    exact .inl ⟨.inl hbad, rfl⟩
  rcases hi with ⟨a, rfl⟩ | ⟨a, rfl⟩
  all_goals
    obtain ⟨ha, ⟨hzero, hfault⟩ | ⟨sp1, -, hdec, -, hok⟩⟩ := heffect
    · cases hfault.symm.trans h
      exact .inl ⟨.inr (if_pos hzero), rfl⟩
    · cases hok.symm.trans h
      exact .inr ⟨hwf, sp1, _, hdec, rfl⟩

/-- Every instruction keeps memory, or is a PUSH or CALL that writes one cell, at the checked decrement of
register 7. -/
theorem exec_mem_cases (h : exec i s = .next t) :
    t.mem = s.mem ∨
    (i.wf = true ∧ ∃ sp1 v, spDec (s.reg 7) = .ok sp1 ∧ t.mem = s.mem.poke sp1.toNat v) := by
  by_cases hi : (∃ a, i = .push a) ∨ ∃ a, i = .call a
  · rcases exec_mem_of_push_or_call hi h with ⟨-, hkept⟩ | hwrites
    · exact .inl hkept
    · exact .inr hwrites
  · exact .inl (exec_mem_of_ne_push_call (fun a e => hi (.inl ⟨a, e⟩)) (fun a e => hi (.inr ⟨a, e⟩)) h)

/-- An ill-formed instruction keeps memory, and so does every instruction when register 7 is 0. -/
theorem exec_mem_of_no_push (hno : i.wf = false ∨ spDec (s.reg 7) = .error .outOfBounds) (h : exec i s = .next t) :
    t.mem = s.mem := by
  rcases exec_mem_cases h with hkept | ⟨hwf, sp1, v, hdec, -⟩
  · exact hkept
  · rcases hno with hbad | herr
    · cases hbad.symm.trans hwf
    · cases herr.symm.trans hdec

/-- No instruction changes a byte outside the checked decrement of register 7. -/
theorem exec_memKeptBut {sp1 : Byte} (hdec : spDec (s.reg 7) = .ok sp1) (h : exec i s = .next t) :
    MemKeptBut sp1.toNat s t := by
  rcases exec_mem_cases h with hkept | ⟨-, sp1', v, hdec', hpoke⟩
  · exact fun addr _ => memKept_of_mem_eq hkept addr
  · cases hdec.symm.trans hdec'
    intro addr hne
    have hread : t.memRead addr = (s.setCell sp1.toNat v).memRead addr := State.memRead_congr hpoke addr
    exact hread.trans (s.memRead_setCell_ne v hne)

/-- Every instruction keeps the canonical form. -/
theorem exec_mem_wf (hwf : s.mem.wf) (h : exec i s = .next t) : t.mem.wf := by
  rcases exec_mem_cases h with hkept | ⟨-, sp1, v, -, hpoke⟩
  · exact hkept ▸ hwf
  · exact hpoke ▸ Memory.poke_wf hwf sp1.isLt v

/-- Settles O21: memory other than at the checked decrement of register 7 is kept, and PUSH and CALL alone write
there. -/
theorem onlyPushAndCallWriteMemory : Obligations.OnlyPushAndCallWriteMemory := by
  refine ⟨fun i s t hpush hcall h => ?_, fun i s t sp1 _ h hdec => exec_memKeptBut hdec h, fun i s t h hzero => ?_⟩
  · exact memKept_of_mem_eq (exec_mem_of_ne_push_call hpush hcall h)
  · exact memKept_of_mem_eq (exec_mem_of_no_push (.inr (if_pos hzero)) h)

/-- In range a write answers the state with that cell set, and every other part of it is kept. -/
theorem memWrite_replaces_one_cell (s : State) {addr : Int} (v : Byte) (hin : inBounds addr) :
    ∃ t, s.memWrite addr v = .ok t ∧ t.memRead addr = .ok v ∧
      (∀ other : Int, other ≠ addr → t.memRead other = s.memRead other) ∧
      RegsKeptBut [] s t ∧ t.pc = s.pc ∧ t.fl = s.fl ∧ ControlKept s t ∧ t.out = s.out := by
  refine ⟨_, s.memWrite_of_inBounds v hin, ?_, fun other hne => ?_, fun _ _ => rfl, rfl, rfl, ⟨rfl, rfl⟩, rfl⟩
  · rw [State.memRead_of_inBounds _ hin, State.setCell_mem, Memory.peek_poke_same]
  · exact s.memRead_setCell_ne v (by have := hin.1; omega)

/-- Settles O19: the contract's own clauses are those of the bounds check, and the instructions, the fetch and the
loader are each said to go through it. -/
theorem memoryContract : Obligations.MemoryContract := by
  refine ⟨fun s addr hlo hhi => ⟨_, s.memRead_of_inBounds ⟨hlo, hhi⟩⟩, fun s addr v hout => ?_,
    fun s addr v hlo hhi => memWrite_replaces_one_cell s v ⟨hlo, hhi⟩,
    fun addr hlo hhi => reset_memRead ⟨hlo, hhi⟩,
    fun i s t hpush hcall h => memKept_of_mem_eq (exec_mem_of_ne_push_call hpush hcall h),
    fun i s t sp1 hi hwf hdec h => ?_,
    fun i s t hno h => memKept_of_mem_eq (exec_mem_of_no_push hno h),
    fun s op opA opB => fetchBytes_eq_ok_iff,
    fun s t addr v rest => ⟨⟨fun h => by cases h; rfl, fun h => by rw [h]; rfl⟩, loadFrom_cons_eq_ok_iff⟩⟩
  · have hout : ¬ inBounds addr := by simp only [inBounds]; omega
    exact ⟨s.memRead_of_not_inBounds hout, s.memWrite_of_not_inBounds v hout⟩
  · rcases exec_mem_of_push_or_call hi h with ⟨hbad | herr, -⟩ | ⟨-, sp1', v, hdec', hpoke⟩
    · cases hbad.symm.trans hwf
    · cases herr.symm.trans hdec
    · cases hdec.symm.trans hdec'
      exact ⟨v, _, s.memWrite_byte sp1 v, memKept_of_mem_eq hpoke⟩

/-- Settles O22: the fetch reads the cell at `pc`, which is the one PUSH has written. -/
theorem pushedByteIsFetched : Obligations.PushedByteIsFetched := by
  intro opA ha s t u sp1 h hdec hkept hpc hle
  obtain ⟨-, hpush, -⟩ := pushStoresBelowStackPointer opA s
  obtain ⟨t', ht', -, -, -, hread, -⟩ := hpush ha sp1 hdec
  cases h.symm.trans ht'
  have haddr : u.pc.toNat = sp1.toNat := by
    rw [hpc]
    exact BitVec.toNat_setWidth_of_le (by decide)
  obtain ⟨-, hopA, hopB⟩ := fetchBytes_eq_ok_iff.mp (fetchBytes_ok hle)
  refine ⟨_, _, fetchBytes_eq_ok_iff.mpr ⟨?_, hopA, hopB⟩⟩
  rw [haddr, hkept, hread]

/-! ## The invariant -/

/-- The next `pc` of an instruction that goes on is at most 256. -/
theorem pc_le_of_nextPc (hpc : s.pc.toNat ≤ 253) (h : NextPc s t i) : t.pc.toNat ≤ 256 := by
  have hjump : ∀ v : Byte, t.pc = zext9 v → t.pc.toNat ≤ 256 := fun v hv => by bv_omega
  cases i with
  | hlt => cases h
  | ret =>
    obtain ⟨v, -, hv⟩ := h
    exact hjump v hv
  | call a | jmp a =>
    obtain ⟨r, -, hv⟩ := h
    exact hjump _ hv
  | jeq a | jne a =>
    obtain hadd | ⟨r, -, hv⟩ := h
    · omega
    · exact hjump _ hv
  | push a | pop a | prn a => exact Nat.le_trans (Nat.le_of_eq h) (by omega)
  | ldi a b | add a b | sub a b | mul a b | div a b | or a b | xor a b | shl a b | shr a b | cmp a b =>
    exact Nat.le_trans (Nat.le_of_eq h) (by omega)

theorem step_mem_wf (hwf : s.mem.wf) (h : step s = .next t) : t.mem.wf := by
  obtain ⟨-, ⟨c, -, rfl⟩ | ⟨i, -, hexec⟩⟩ := step_cases h
  · exact hwf
  · exact exec_mem_wf hwf hexec

theorem step_pc_le (hpc : s.pc.toNat ≤ 256) (h : step s = .next t) : t.pc.toNat ≤ 256 := by
  obtain ⟨hgoes, hheld⟩ := nextPcComesFromTheHandler s t h
  cases hrun : t.run with
  | running =>
    obtain ⟨hle, i, -, -, hnext⟩ := hgoes hrun
    exact pc_le_of_nextPc hle hnext
  | halted => exact (congrArg BitVec.toNat (hheld hrun)).trans_le hpc

/-- Settles O17: each part of the invariant is kept by itself; the error cause needs that the machine was running. -/
theorem stepKeepsInvariant : Obligations.StepKeepsInvariant := by
  rintro s t ⟨hwf, hpc, hnone, hne⟩ h
  refine ⟨step_mem_wf hwf h, step_pc_le hpc h, ?_⟩
  rcases step_outcome h with ⟨c, rfl, -, hc, -⟩ | ⟨-, rfl⟩ | ⟨-, herr⟩
  · exact ⟨nofun, hc⟩
  · exact ⟨nofun, nofun⟩
  · exact ⟨fun _ => herr.trans (hnone (step_cases h).1), fun he => hne (herr.symm.trans he)⟩

end Sys2Proof.Machine
end

section
/-! Proofs about the ALU (40_alu.md): the instructions that write a register share one rule, so each is its
combinational function read as a function of unsigned numbers. -/

namespace Sys2Proof.Machine

/-! ## The combinational functions as functions of unsigned numbers -/

theorem aluAdd_toNat (va vb : Byte) : (aluAdd va vb).toNat = (va.toNat + vb.toNat) % 256 := BitVec.toNat_ofNat _ _

theorem aluSub_toNat (va vb : Byte) : (aluSub va vb).toNat = (((va.toNat : Int) - (vb.toNat : Int)) % 256).toNat :=
  BitVec.toNat_ofInt _

theorem aluMul_toNat (va vb : Byte) : (aluMul va vb).toNat = (va.toNat * vb.toNat) % 256 := BitVec.toNat_ofNat _ _

theorem aluShl_toNat (va vb : Byte) : (aluShl va vb).toNat = (va.toNat * 2 ^ (vb.toNat % 8)) % 256 := by
  rw [aluShl, shiftAmount, BitVec.toNat_shiftLeft, Nat.shiftLeft_eq]

theorem aluShr_toNat (va vb : Byte) : (aluShr va vb).toNat = va.toNat / 2 ^ (vb.toNat % 8) := by
  rw [aluShr, shiftAmount, BitVec.toNat_ushiftRight, Nat.shiftRight_eq_div_pow]

/-- A quotient of bytes is a byte: DIV's result needs no reduction. -/
theorem toNat_ofNat_div (va vb : Byte) : (BitVec.ofNat 8 (va.toNat / vb.toNat)).toNat = va.toNat / vb.toNat :=
  (BitVec.toNat_ofNat _ _).trans (Nat.mod_eq_of_lt (Nat.lt_of_le_of_lt (Nat.div_le_self _ _) va.isLt))

/-! ## The instructions that write a register -/

/-- An instruction that is the common ALU rule with a function that never raises has the shape of 40_alu.md
section 2. -/
theorem aluWritesFirstRegister_of_aluBinary {mk : Byte → Byte → Instr} {g : Byte → Byte → Byte} {f : Nat → Nat → Nat}
    (hexec : ∀ opA opB s, exec (mk opA opB) s = aluBinary (fun va vb => .ok (g va vb)) opA opB s)
    (hval : ∀ va vb, (g va vb).toNat = f va.toNat vb.toNat) : AluWritesFirstRegister mk f := by
  refine fun opA opB s => ⟨fun ha hb => ?_, fun hbad => (hexec _ _ _).trans (aluBinary_invalid hbad)⟩
  obtain ⟨hreg, hframe⟩ := setReg_advancePc_only_reg_pc s ⟨opA.toNat, ha⟩
    (g (s.reg ⟨opA.toNat, ha⟩) (s.reg ⟨opB.toNat, hb⟩)) 3
  exact ⟨_, (hexec _ _ _).trans (exec_aluTotal g ha hb), (congrArg BitVec.toNat hreg).trans (hval _ _), hframe⟩

/-- Settles O27: ADD is the common rule with `aluAdd`. -/
theorem addWritesSumModulo256 : Obligations.AddWritesSumModulo256 :=
  aluWritesFirstRegister_of_aluBinary (fun _ _ _ => rfl) aluAdd_toNat

/-- Settles O28: SUB is the common rule with `aluSub`. -/
theorem subWritesDifferenceModulo256 : Obligations.SubWritesDifferenceModulo256 :=
  aluWritesFirstRegister_of_aluBinary (fun _ _ _ => rfl) aluSub_toNat

/-- Settles O29: MUL is the common rule with `aluMul`. -/
theorem mulWritesProductModulo256 : Obligations.MulWritesProductModulo256 :=
  aluWritesFirstRegister_of_aluBinary (fun _ _ _ => rfl) aluMul_toNat

/-- Settles O30: OR is the common rule with `aluOr`. -/
theorem orWritesBitwiseOr : Obligations.OrWritesBitwiseOr :=
  ⟨aluWritesFirstRegister_of_aluBinary (g := aluOr) (fun _ _ _ => rfl) BitVec.toNat_or,
    fun _ _ _ => BitVec.getLsbD_or⟩

/-- Settles O31: XOR is the common rule with `aluXor`. -/
theorem xorWritesBitwiseXor : Obligations.XorWritesBitwiseXor :=
  ⟨aluWritesFirstRegister_of_aluBinary (g := aluXor) (fun _ _ _ => rfl) BitVec.toNat_xor,
    fun _ _ _ => BitVec.getLsbD_xor⟩

/-- Settles O32: SHL is the common rule with `aluShl`. -/
theorem shlShiftsByAmountModulo8 : Obligations.ShlShiftsByAmountModulo8 :=
  aluWritesFirstRegister_of_aluBinary (fun _ _ _ => rfl) aluShl_toNat

/-- Settles O33: SHR is the common rule with `aluShr`. -/
theorem shrShiftsByAmountModulo8 : Obligations.ShrShiftsByAmountModulo8 :=
  aluWritesFirstRegister_of_aluBinary (fun _ _ _ => rfl) aluShr_toNat

/-- Settles O34: with a divisor that is not 0 DIV writes the quotient by the common rule. -/
theorem divWritesFloorOfQuotient : Obligations.DivWritesFloorOfQuotient := by
  refine fun opA opB s => ⟨fun ha hb hz => ?_, execDiv_invalid⟩
  obtain ⟨hreg, hframe⟩ := setReg_advancePc_only_reg_pc s ⟨opA.toNat, ha⟩
    (BitVec.ofNat 8 ((s.reg ⟨opA.toNat, ha⟩).toNat / (s.reg ⟨opB.toNat, hb⟩).toNat)) 3
  exact ⟨_, execDiv_ok ha hb hz, (congrArg BitVec.toNat hreg).trans (toNat_ofNat_div _ _), hframe⟩

/-! ## CMP -/

/-- The comparison is the order of the two unsigned numbers. -/
theorem compareFlag_iff (va vb : Byte) :
    (compareFlag va vb = .eq ↔ va.toNat = vb.toNat) ∧ (compareFlag va vb = .lt ↔ va.toNat < vb.toNat) ∧
      (compareFlag va vb = .gt ↔ vb.toNat < va.toNat) := by
  unfold compareFlag
  by_cases heq : va = vb
  · simp [heq]
  · have hne : va.toNat ≠ vb.toNat := fun e => heq (BitVec.eq_of_toNat_eq e)
    by_cases hlt : va.toNat < vb.toNat
    · simp [heq, hlt, hne, Nat.le_of_lt hlt]
    · have hgt : vb.toNat < va.toNat := by omega
      simp [heq, hlt, hne, hgt]

/-- Settles O36: CMP's next state writes the comparison into the flag and advances `pc`. -/
theorem cmpWritesUnsignedOrder : Obligations.CmpWritesUnsignedOrder := by
  refine fun opA opB s => ⟨fun ha hb => ?_, execCmp_invalid⟩
  obtain ⟨heq, hlt, hgt⟩ := compareFlag_iff (s.reg ⟨opA.toNat, ha⟩) (s.reg ⟨opB.toNat, hb⟩)
  exact ⟨_, execCmp_ok ha hb, heq, hlt, hgt, fun _ _ => rfl, rfl, fun _ => rfl, rfl, rfl, rfl⟩

end Sys2Proof.Machine
end

section
/-! Proofs about the conditional jumps (42_jump.md section 3), alone and after CMP. -/

namespace Sys2Proof.Machine

/-- The common jump rule on a good operand: the condition selects the next `pc`, and the rest of the state is kept. -/
theorem jumpIf_selects_pc (taken : Bool) {opA : Byte} (ha : opA.toNat < 8) (s : State) :
    ∃ t, jumpIf taken opA s = .next t ∧ t.pc = (if taken then zext9 (s.reg ⟨opA.toNat, ha⟩) else s.pc + 2) ∧
      RegsKeptBut [] s t ∧ t.fl = s.fl ∧ MemKept s t ∧ t.out = s.out ∧ ControlKept s t := by
  refine ⟨_, jumpIf_ok ha, ?_⟩
  cases taken with
  | true => exact jumpTo_only_pc s _
  | false => exact ⟨rfl, fun _ _ => rfl, rfl, fun _ => rfl, rfl, rfl, rfl⟩

/-- Settles O44: JEQ's condition is that the flag is EQ. -/
theorem jeqJumpsWhenEqual : Obligations.JeqJumpsWhenEqual := by
  refine fun opA s => ⟨fun ha => ?_, jumpIf_invalid⟩
  obtain ⟨t, hexec, hpc, hframe⟩ := jumpIf_selects_pc s.fl.isEq ha s
  refine ⟨t, hexec, fun heq => hpc.trans ?_, fun hne => hpc.trans ?_, hframe⟩
  · rw [heq]; rfl
  · have hfl : s.fl.isEq = false := beq_false_of_ne hne
    rw [hfl]; rfl

/-- Settles O45: JNE's condition is that the flag is not EQ. -/
theorem jneJumpsWhenNotEqual : Obligations.JneJumpsWhenNotEqual := by
  refine fun opA s => ⟨fun ha => ?_, jumpIf_invalid⟩
  obtain ⟨t, hexec, hpc, hframe⟩ := jumpIf_selects_pc (!s.fl.isEq) ha s
  refine ⟨t, hexec, fun hne => hpc.trans ?_, fun heq => hpc.trans ?_, hframe⟩
  · have hfl : s.fl.isEq = false := beq_false_of_ne hne
    rw [hfl]; rfl
  · rw [heq]; rfl

/-- Settles O46: CMP's flag is EQ exactly for equal registers, and the jumps decide on that. -/
theorem compareThenConditionalJump : Obligations.CompareThenConditionalJump := by
  intro a b c s ha hb hc
  obtain ⟨t, hcmp, heq, hlt, -, hregs, hpc, -⟩ := (cmpWritesUnsignedOrder a b s).1 ha hb
  obtain ⟨je, hje, hjeTaken, hjeNot, -⟩ := (jeqJumpsWhenEqual c t).1 hc
  obtain ⟨jn, hjn, hjnTaken, hjnNot, -⟩ := (jneJumpsWhenNotEqual c t).1 hc
  have htarget : zext9 (t.reg ⟨c.toNat, hc⟩) = zext9 (s.reg ⟨c.toNat, hc⟩) := by rw [hregs _ List.not_mem_nil]
  have hnext : t.pc + 2 = s.pc + 5 := by rw [hpc, BitVec.add_assoc]; rfl
  refine ⟨t, je, jn, hcmp, hje, hjn, fun hequal => ?_, fun hdiffer => ?_, hlt.mpr⟩
  · have hfl : t.fl = .eq := heq.mpr (congrArg BitVec.toNat hequal)
    exact ⟨(hjeTaken hfl).trans htarget, (hjnNot hfl).trans hnext⟩
  · have hfl : t.fl ≠ .eq := fun e => hdiffer (BitVec.eq_of_toNat_eq (heq.mp e))
    exact ⟨(hjeNot hfl).trans hnext, (hjnTaken hfl).trans htarget⟩

end Sys2Proof.Machine
end

section
/-! Proofs about CALL and about pairs of stack instructions (41_stack_call.md sections 3 and 4). A pair is the
statement of its first instruction followed by that of its second. -/

namespace Sys2Proof.Machine

/-- From where a fetch can stand, the return address fits a byte. -/
theorem returnAddress_toNat {s : State} (hpc : s.pc.toNat ≤ 253) : (returnAddress s).toNat = s.pc.toNat + 2 := by
  rw [returnAddress]
  bv_omega

/-- Settles O39: CALL's next state is the one its outcome equation writes out. -/
theorem callPushesReturnAddressAndJumps : Obligations.CallPushesReturnAddressAndJumps := by
  refine fun opA s => ⟨fun ha sp1 hdec => ?_, execCall_invalid, execCall_zero⟩
  refine ⟨_, returnAddress s, execCall_ok ha hdec, toNat_add_one_of_spDec hdec, s.reg_setReg_same 7 sp1,
    regsKeptBut_setReg s 7 sp1, returnAddress_toNat, State.memRead_setCell_same _ _ _, memKeptBut_setCell _ _ _,
    ?_, rfl, rfl, rfl, rfl⟩
  rw [← State.reg_operand_setReg_sp]
  rfl

/-- A stack pointer that is one below another byte can be incremented. -/
theorem ne_top_of_toNat_add_one {sp1 v : Byte} (h : sp1.toNat + 1 = v.toNat) : sp1 ≠ 0xFF#8 := by
  bv_omega

/-- Settles O41: POP reads the cell PUSH has written, at the stack pointer PUSH has left, which is not 255. -/
theorem pushThenPopMovesRegister : Obligations.PushThenPopMovesRegister := by
  intro a b s ha hb ha7 hb7 hsp
  obtain ⟨-, hpush, -, -, hdec⟩ := pushStoresBelowStackPointer a s
  obtain ⟨sp1, hsp1⟩ := hdec hsp
  obtain ⟨t, ht, hval, htsp, htregs, hread, -, htpc, -⟩ := hpush ha sp1 hsp1
  rw [if_neg ha7, ← htsp] at hread
  obtain ⟨-, hpop, -⟩ := popLoadsAtStackPointer b t
  obtain ⟨hok, -⟩ := hpop hb _ hread
  rw [if_neg hb7, htsp] at hok
  obtain ⟨u, hu, husp, hub, huregs, hupc, -⟩ := hok (ne_top_of_toNat_add_one hval)
  have hrestored : u.reg 7 = s.reg 7 := BitVec.eq_of_toNat_eq (husp.trans hval)
  refine ⟨t, u, ht, hu, hub hb7, hrestored, fun q hq => ?_, ?_⟩
  · by_cases hq7 : q = 7
    · rw [hq7, hrestored]
    · have hqb : q ∉ [⟨b.toNat, hb⟩, 7] := by simpa [hq7] using hq
      rw [huregs q hqb, htregs q (by simpa using hq7)]
  · rw [hupc, htpc, BitVec.add_assoc]
    rfl

/-- Settles O42: RET reads the cell CALL has written, at the stack pointer CALL has left, which is not 255. -/
theorem retResumesAfterCall : Obligations.RetResumesAfterCall := by
  intro a s t u ha hpc hsp h husp hucell
  rcases spDec_cases (s.reg 7) with ⟨hzero, -⟩ | ⟨-, hdec, -⟩
  · exact absurd hzero hsp
  obtain ⟨t', ret, ht', hval, htsp, -, hret, hread, -⟩ := (callPushesReturnAddressAndJumps a s).1 ha _ hdec
  cases h.symm.trans ht'
  rw [← htsp] at hval hread
  rw [hread, ← husp] at hucell
  rw [← husp] at hval
  obtain ⟨w, hw, hwpc, hwsp, hwregs, -, hwmem, -⟩ :=
    (retPopsReturnAddress.2 u ret hucell).1 (ne_top_of_toNat_add_one hval)
  refine ⟨w, hw, ?_, BitVec.eq_of_toNat_eq (hwsp.trans hval), hwregs, hwmem⟩
  rw [hwpc, ← hret hpc]
  exact BitVec.toNat_setWidth_of_le (by decide)

end Sys2Proof.Machine
end

section
/-! Proofs about PRN and the console's text (43_ldi_prn_hlt.md R151, 10_state.md R29). -/

namespace Sys2Proof.Machine

theorem digitChar_eq {d : Nat} (h : d < 10) : digitChar d = Nat.digitChar d := by
  revert d
  decide

/-- The model's numeral is the decimal numeral without leading zeros: it is built digit by digit. -/
theorem byteNumeral_eq_toDigits (v : Byte) : byteNumeral v = Nat.toDigits 10 v.toNat := by
  have hlt := v.isLt
  unfold byteNumeral
  by_cases h1 : v.toNat < 10
  · rw [if_pos h1, Nat.toDigits_of_lt_base h1, digitChar_eq h1]
  rw [if_neg h1, Nat.toDigits_of_base_le (by decide) (by omega : 10 ≤ v.toNat)]
  by_cases h2 : v.toNat < 100
  · rw [if_pos h2, Nat.toDigits_of_lt_base (by omega), digitChar_eq (by omega), digitChar_eq (by omega)]
    rfl
  · rw [if_neg h2, Nat.toDigits_of_base_le (by decide) (by omega), Nat.toDigits_of_lt_base (by omega),
      Nat.div_div_eq_div_mul, digitChar_eq (by omega), digitChar_eq (by omega), digitChar_eq (by omega)]
    rfl

/-- The text of a log with one more byte. -/
theorem consoleText_append (out : List Byte) (v : Byte) :
    consoleText (out ++ [v]) = consoleText out ++ Nat.toDigits 10 v.toNat ++ ['\n'] := by
  simp only [consoleText, List.flatMap_append, List.flatMap_singleton, byteNumeral_eq_toDigits, List.append_assoc]

/-- Settles O48: PRN's next state appends the register's byte, and the text grows by that byte's numeral. -/
theorem prnEmitsRegister : Obligations.PrnEmitsRegister := fun opA s =>
  ⟨fun opB => decode_known (o := .prn) rfl opA opB,
    fun ha => ⟨_, execPrn_ok ha, rfl, consoleText_append s.out _, fun _ _ => rfl, rfl, rfl, fun _ => rfl, rfl, rfl⟩,
    fun ha => ⟨_, execPrn_invalid ha, rfl, rfl, rfl⟩⟩

/-- Settles O50: PRN reads the register LDI has written, and LDI keeps the log. -/
theorem ldiThenPrnPrintsImmediate : Obligations.LdiThenPrnPrintsImmediate := by
  intro r v s hr
  obtain ⟨t, ht, hreg, -, -, -, -, hout, -⟩ := (ldiWritesImmediate r v s).2.1 hr
  obtain ⟨u, hu, huout, hutext, -⟩ := (prnEmitsRegister r t).2.1 hr
  rw [hreg, hout] at huout hutext
  exact ⟨t, u, ht, hu, huout, hutext⟩

end Sys2Proof.Machine
end

section
/-! Proofs about the program file format (30_encoding.md R96): a literal's line reads as its byte whatever comment
follows it, and the lines between are skipped. -/

namespace Sys2Proof.Machine

/-! ## Blanks around a text -/

theorem dropBlanks_of_head {w : List Char} (h : ∀ c ∈ w.head?, isBlank c = false) : w.dropWhile isBlank = w := by
  cases w with
  | nil => rfl
  | cons c w => exact List.dropWhile_cons_of_neg (Bool.eq_false_iff.mp (h c rfl))

/-- A text that neither begins nor ends with a blank has no blanks around it. -/
theorem trimBlanks_eq_self {w : List Char} (hhead : ∀ c ∈ w.head?, isBlank c = false)
    (hlast : ∀ c ∈ w.getLast?, isBlank c = false) : trimBlanks w = w := by
  rw [← List.head?_reverse] at hlast
  rw [trimBlanks, dropBlanks_of_head hhead, dropBlanks_of_head hlast, List.reverse_reverse]

/-- A text without any blank has none around it. -/
theorem trimBlanks_of_no_blank {w : List Char} (h : ∀ c ∈ w, isBlank c = false) : trimBlanks w = w :=
  trimBlanks_eq_self (fun c hc => h c (List.mem_of_mem_head? hc)) (fun c hc => h c (List.mem_of_getLast? hc))

/-- A blank before a text is trimmed. -/
theorem trimBlanks_cons {c : Char} (hc : isBlank c = true) (w : List Char) : trimBlanks (c :: w) = trimBlanks w := by
  rw [trimBlanks, List.dropWhile_cons_of_pos hc, trimBlanks]

/-- A blank after a text without blanks is trimmed. -/
theorem trimBlanks_append_singleton {w : List Char} (hw : ∀ c ∈ w, isBlank c = false) {c : Char}
    (hc : isBlank c = true) : trimBlanks (w ++ [c]) = w := by
  cases w with
  | nil => rw [List.nil_append, trimBlanks_cons hc]; rfl
  | cons d w =>
    have hd : ¬ isBlank d = true := Bool.eq_false_iff.mp (hw d List.mem_cons_self)
    have htrim := trimBlanks_of_no_blank hw
    rw [trimBlanks, List.dropWhile_cons_of_neg hd] at htrim
    rw [trimBlanks, List.cons_append, List.dropWhile_cons_of_neg hd, ← List.cons_append, List.reverse_append,
      List.reverse_singleton, List.singleton_append, List.dropWhile_cons_of_pos hc, htrim]

/-! ## Lines -/

/-- The literal of a byte, most significant bit first. -/
def literalText (v : Byte) : List Char := (List.range 8).map fun k => if v.getLsbD (7 - k) then '1' else '0'

theorem binaryLiteral_literalText : ∀ v : Byte, binaryLiteral (literalText v) = some v := by
  decide

theorem literalText_digit {v : Byte} {c : Char} (h : c ∈ literalText v) : c = '1' ∨ c = '0' := by
  obtain ⟨k, -, rfl⟩ := List.mem_map.mp h
  exact ite_eq_or_eq _ _ _

/-- A literal's line, with a comment after it, is the literal. -/
theorem stripLine_literalText (v : Byte) (comment : List Char) :
    stripLine (literalText v ++ [' ', '#'] ++ comment) = literalText v := by
  have hblank : ∀ c ∈ literalText v, isBlank c = false := by
    intro c hc
    rcases literalText_digit hc with rfl | rfl <;> rfl
  have hhash : ∀ c ∈ literalText v ++ [' '], (c != '#') = true := by
    intro c hc
    rcases List.mem_append.mp hc with hc | hc
    · rcases literalText_digit hc with rfl | rfl <;> rfl
    · rw [List.mem_singleton.mp hc]; rfl
  have hline : literalText v ++ [' ', '#'] ++ comment = (literalText v ++ [' ']) ++ '#' :: comment := by simp
  rw [stripLine, hline, List.takeWhile_append_of_pos hhash, List.takeWhile_cons_of_neg (by decide), List.append_nil,
    trimBlanks_append_singleton hblank rfl]

/-- A line of nothing but a comment or blanks is skipped. -/
theorem parseProgram_skip {line : List Char} (h : stripLine line = []) (rest : List (List Char)) :
    parseProgram (line :: rest) = parseProgram rest := by
  rw [parseProgram, h]
  rfl

/-- A literal's line gives its byte. -/
theorem parseProgram_literal {line : List Char} {b : Byte} (h : binaryLiteral (stripLine line) = some b)
    (rest : List (List Char)) : parseProgram (line :: rest) = (parseProgram rest).map (b :: ·) := by
  have hne : ¬ (stripLine line).isEmpty = true := by
    intro hempty
    rw [List.isEmpty_iff.mp hempty] at h
    cases h
  rw [parseProgram, if_neg hne, h]

/-- Settles O51: by induction on the program, three lines at a time. -/
theorem programTextReadsBackItsBytes : Obligations.ProgramTextReadsBackItsBytes := by
  intro program comment
  induction program with
  | nil => rfl
  | cons v program ih =>
    have hliteral : binaryLiteral (stripLine (literalText v ++ [' ', '#'] ++ comment)) = some v := by
      rw [stripLine_literalText, binaryLiteral_literalText]
    rw [List.flatMap_cons]
    exact (parseProgram_literal hliteral _).trans
      (congrArg (Option.map (v :: ·)) ((parseProgram_skip rfl _).trans ((parseProgram_skip rfl _).trans ih)))

end Sys2Proof.Machine
end

section
/-! Proofs about the assembler text (30_encoding.md R94). A text is a mnemonic and operands, all of them words of
capitals and digits, so that every separator the reader looks for is one the writer has put there. -/

namespace Sys2Proof.Machine

/-! ## Words -/

/-- The characters of mnemonics, registers and numerals. -/
def isWordChar (c : Char) : Bool := c.isUpper || c.isDigit

/-- A word: at least one character, all of them capitals or digits. -/
def IsWord (w : List Char) : Prop := w ≠ [] ∧ ∀ c ∈ w, isWordChar c = true

theorem ne_of_isWordChar {c d : Char} (hc : isWordChar c = true) (hd : isWordChar d = false) : c ≠ d := by
  rintro rfl
  cases hc.symm.trans hd

theorem isBlank_of_isWordChar {c : Char} (hc : isWordChar c = true) : isBlank c = false := by
  have hspace : c ≠ ' ' := ne_of_isWordChar hc rfl
  have htab : c ≠ '\t' := ne_of_isWordChar hc rfl
  have hreturn : c ≠ '\r' := ne_of_isWordChar hc rfl
  simp only [isBlank, beq_false_of_ne hspace, beq_false_of_ne htab, beq_false_of_ne hreturn, Bool.or_self]

theorem IsWord.no_blank {w : List Char} (h : IsWord w) : ∀ c ∈ w, isBlank c = false :=
  fun c hc => isBlank_of_isWordChar (h.2 c hc)

theorem isWord_mnemonic (o : Opcode) : IsWord (mnemonic o) := by
  cases o <;> exact ⟨nofun, List.all_eq_true.mp rfl⟩

theorem isDigit_of_mem_byteNumeral {v : Byte} {c : Char} (h : c ∈ byteNumeral v) : c.isDigit = true := by
  rw [byteNumeral_eq_toDigits] at h
  exact Nat.isDigit_of_mem_toDigits (by decide) (by decide) h

theorem isWord_byteNumeral (v : Byte) : IsWord (byteNumeral v) := by
  constructor
  · rw [byteNumeral_eq_toDigits]
    exact Nat.toDigits_ne_nil
  · intro c hc
    rw [isWordChar, isDigit_of_mem_byteNumeral hc, Bool.or_true]

theorem isWord_registerText (b : Byte) : IsWord (registerText b) := by
  refine ⟨nofun, fun c hc => ?_⟩
  rcases List.mem_cons.mp hc with rfl | hc
  · rfl
  · exact (isWord_byteNumeral b).2 c hc

/-! ## Splitting at separators -/

theorem piecesAt_of_no_separator {sep : Char → Bool} {w : List Char} (h : ∀ c ∈ w, sep c = false) :
    piecesAt sep w = [w] := by
  induction w with
  | nil => rfl
  | cons c w ih =>
    have hc : ¬ sep c = true := Bool.eq_false_iff.mp (h c List.mem_cons_self)
    rw [piecesAt, if_neg hc, ih fun d hd => h d (List.mem_cons_of_mem _ hd)]

/-- The first piece ends at the first separator. -/
theorem piecesAt_append_separator {sep : Char → Bool} {w : List Char} (h : ∀ c ∈ w, sep c = false) {d : Char}
    (hd : sep d = true) (rest : List Char) : piecesAt sep (w ++ d :: rest) = w :: piecesAt sep rest := by
  induction w with
  | nil => rw [List.nil_append, piecesAt, if_pos hd]
  | cons c w ih =>
    have hc : ¬ sep c = true := Bool.eq_false_iff.mp (h c List.mem_cons_self)
    rw [List.cons_append, piecesAt, if_neg hc, ih fun d hd => h d (List.mem_cons_of_mem _ hd)]

/-! ## An instruction's text as a mnemonic and operands -/

/-- The texts of an instruction's operands. -/
def operandTexts : Instr → List (List Char)
  | .hlt | .ret => []
  | .push a | .pop a | .prn a | .call a | .jmp a | .jeq a | .jne a => [registerText a]
  | .ldi a v => [registerText a, byteNumeral v]
  | .add a b | .sub a b | .mul a b | .div a b | .cmp a b | .or a b | .xor a b | .shl a b | .shr a b =>
    [registerText a, registerText b]

/-- Operands with commas between them. -/
def commaSeparated : List (List Char) → List Char
  | [] => []
  | [w] => w
  | w :: v :: ws => w ++ ',' :: commaSeparated (v :: ws)

/-- What follows a mnemonic: nothing, or a space and the operands. -/
def operandsText : List (List Char) → List Char
  | [] => []
  | w :: ws => ' ' :: commaSeparated (w :: ws)

theorem instrText_eq (i : Instr) : instrText i = mnemonic i.opcode ++ operandsText (operandTexts i) := by
  cases i <;> rfl

theorem isWord_of_mem_operandTexts (i : Instr) : ∀ w ∈ operandTexts i, IsWord w := by
  cases i with
  | hlt | ret => exact nofun
  | push a | pop a | prn a | call a | jmp a | jeq a | jne a =>
    exact List.forall_mem_singleton.mpr (isWord_registerText a)
  | ldi a v =>
    exact List.forall_mem_cons.mpr ⟨isWord_registerText a, List.forall_mem_singleton.mpr (isWord_byteNumeral v)⟩
  | add a b | sub a b | mul a b | div a b | cmp a b | or a b | xor a b | shl a b | shr a b =>
    exact List.forall_mem_cons.mpr ⟨isWord_registerText a, List.forall_mem_singleton.mpr (isWord_registerText b)⟩

/-! ## Operands -/

variable {ws : List (List Char)}

theorem isWordChar_or_comma_of_mem (hws : ∀ w ∈ ws, IsWord w) {c : Char} (h : c ∈ commaSeparated ws) :
    isWordChar c = true ∨ c = ',' := by
  induction ws with
  | nil => cases h
  | cons w ws ih =>
    obtain ⟨hw, hws⟩ := List.forall_mem_cons.mp hws
    cases ws with
    | nil => exact .inl (hw.2 c h)
    | cons v ws =>
      rcases List.mem_append.mp h with hc | hc
      · exact .inl (hw.2 c hc)
      · rcases List.mem_cons.mp hc with rfl | hc
        · exact .inr rfl
        · exact ih hws hc

theorem no_blank_of_mem_commaSeparated (hws : ∀ w ∈ ws, IsWord w) : ∀ c ∈ commaSeparated ws, isBlank c = false := by
  intro c hc
  rcases isWordChar_or_comma_of_mem hws hc with hword | rfl
  · exact isBlank_of_isWordChar hword
  · rfl

theorem commaSeparated_cons_ne_nil {w : List Char} (hw : IsWord w) (ws : List (List Char)) :
    commaSeparated (w :: ws) ≠ [] := by
  cases ws with
  | nil => exact hw.1
  | cons v ws => exact List.append_ne_nil_of_left_ne_nil hw.1 _

/-- Splitting at commas undoes putting them in. -/
theorem piecesAt_commaSeparated (hne : ws ≠ []) (hws : ∀ w ∈ ws, IsWord w) :
    piecesAt (· == ',') (commaSeparated ws) = ws := by
  induction ws with
  | nil => exact absurd rfl hne
  | cons w ws ih =>
    obtain ⟨hw, hws⟩ := List.forall_mem_cons.mp hws
    have hcomma : ∀ c ∈ w, (c == ',') = false := fun c hc => beq_false_of_ne (ne_of_isWordChar (hw.2 c hc) rfl)
    cases ws with
    | nil => exact piecesAt_of_no_separator hcomma
    | cons v ws => exact (piecesAt_append_separator hcomma rfl _).trans (congrArg _ (ih (List.cons_ne_nil v ws) hws))

theorem trimBlanks_operandsText (hws : ∀ w ∈ ws, IsWord w) : trimBlanks (operandsText ws) = commaSeparated ws := by
  cases ws with
  | nil => rfl
  | cons w ws => exact (trimBlanks_cons rfl _).trans (trimBlanks_of_no_blank (no_blank_of_mem_commaSeparated hws))

/-- The reader's operands are the ones written. -/
theorem operands_of_operandsText (hws : ∀ w ∈ ws, IsWord w) :
    (if (trimBlanks (operandsText ws)).isEmpty then []
      else (piecesAt (· == ',') (trimBlanks (operandsText ws))).map trimBlanks) = ws := by
  rw [trimBlanks_operandsText hws]
  cases ws with
  | nil => rfl
  | cons w ws =>
    have hw : IsWord w := hws w List.mem_cons_self
    rw [if_neg (mt List.isEmpty_iff.mp (commaSeparated_cons_ne_nil hw ws)),
      piecesAt_commaSeparated (List.cons_ne_nil w ws) hws]
    exact (List.map_congr_left fun v hv => trimBlanks_of_no_blank (hws v hv).no_blank).trans (List.map_id _)

/-! ## Reading a line -/

theorem find?_mnemonic (o : Opcode) :
    opcodeTable.find? (fun row => mnemonic row.2 == mnemonic o) = some (o.byte, o) := by
  cases o <;> rfl

/-- The first word of an instruction's text is its mnemonic. -/
theorem span_mnemonic (o : Opcode) (ws : List (List Char)) :
    (mnemonic o ++ operandsText ws).takeWhile (! isBlank ·) = mnemonic o ∧
      (mnemonic o ++ operandsText ws).dropWhile (! isBlank ·) = operandsText ws := by
  have hword : ∀ c ∈ mnemonic o, (! isBlank c) = true := fun c hc => by
    rw [(isWord_mnemonic o).no_blank c hc]
    rfl
  rw [List.takeWhile_append_of_pos hword, List.dropWhile_append_of_pos hword]
  cases ws with
  | nil => exact ⟨List.append_nil _, rfl⟩
  | cons w ws => exact ⟨List.append_nil _, rfl⟩

theorem readInstruction_text (o : Opcode) (hws : ∀ w ∈ ws, IsWord w) :
    readInstruction none (mnemonic o ++ operandsText ws) = some ⟨none, o, ws⟩ := by
  obtain ⟨htake, hdrop⟩ := span_mnemonic o ws
  rw [readInstruction, htake, hdrop, find?_mnemonic]
  exact congrArg (fun l => some (AssemblyLine.mk none o l)) (operands_of_operandsText hws)

/-- The characters of an instruction's text. -/
theorem mem_text (o : Opcode) (hws : ∀ w ∈ ws, IsWord w) {c : Char} (h : c ∈ mnemonic o ++ operandsText ws) :
    isWordChar c = true ∨ c = ',' ∨ c = ' ' := by
  rcases List.mem_append.mp h with hc | hc
  · exact .inl ((isWord_mnemonic o).2 c hc)
  · cases ws with
    | nil => cases hc
    | cons w ws =>
      rcases List.mem_cons.mp hc with rfl | hc
      · exact .inr (.inr rfl)
      · exact (isWordChar_or_comma_of_mem hws hc).imp_right .inl

/-- A separator of lines or labels does not occur in an instruction's text. -/
theorem no_separator_in_text (o : Opcode) (hws : ∀ w ∈ ws, IsWord w) {d : Char} (hd : isWordChar d = false)
    (hcomma : ',' ≠ d) (hspace : ' ' ≠ d) : ∀ c ∈ mnemonic o ++ operandsText ws, c ≠ d := by
  intro c hc
  rcases mem_text o hws hc with hword | rfl | rfl
  · exact ne_of_isWordChar hword hd
  · exact hcomma
  · exact hspace

/-- An instruction's text begins and ends with a word. -/
theorem trimBlanks_text (o : Opcode) (hws : ∀ w ∈ ws, IsWord w) :
    trimBlanks (mnemonic o ++ operandsText ws) = mnemonic o ++ operandsText ws := by
  obtain ⟨hne, -⟩ := isWord_mnemonic o
  have hblank := (isWord_mnemonic o).no_blank
  refine trimBlanks_eq_self (fun c hc => ?_) (fun c hc => ?_)
  · rw [List.head?_append_of_ne_nil _ hne] at hc
    exact hblank c (List.mem_of_mem_head? hc)
  · cases ws with
    | nil =>
      rw [operandsText, List.append_nil] at hc
      exact hblank c (List.mem_of_getLast? hc)
    | cons w ws =>
      have hoperands := commaSeparated_cons_ne_nil (hws w List.mem_cons_self) ws
      rw [operandsText, List.append_cons, List.getLast?_append_of_ne_nil _ hoperands] at hc
      exact no_blank_of_mem_commaSeparated hws c (List.mem_of_getLast? hc)

theorem readLine_text (o : Opcode) (hws : ∀ w ∈ ws, IsWord w) :
    readLine (mnemonic o ++ operandsText ws) = some ⟨none, o, ws⟩ := by
  have hcolon := no_separator_in_text o hws (d := ':') rfl (by decide) (by decide)
  rw [readLine, piecesAt_of_no_separator (fun c hc => beq_false_of_ne (hcolon c hc))]
  exact (congrArg _ (trimBlanks_text o hws)).trans (readInstruction_text o hws)

/-! ## Reading operands -/

theorem digitValue_of_isDigit {c : Char} (h : c.isDigit = true) :
    digitValue c = c.toNat - '0'.toNat ∧ digitValue c < 10 := by
  obtain ⟨hlo, hhi⟩ := Bool.and_eq_true_iff.mp h
  have hvalue : digitValue c = c.toNat - 48 := if_pos ⟨of_decide_eq_true hlo, of_decide_eq_true hhi⟩
  have hle : c.toNat ≤ 57 := (Char.isDigit_iff_toNat.mp h).2
  exact ⟨hvalue, by omega⟩

/-- The reader's value of a decimal numeral is the number it was written for. -/
theorem numeralValue_byteNumeral (v : Byte) : numeralValue 10 (byteNumeral v) = some v.toNat := by
  have hdigit : ∀ c ∈ byteNumeral v, digitValue c = c.toNat - '0'.toNat ∧ digitValue c < 10 :=
    fun c hc => digitValue_of_isDigit (isDigit_of_mem_byteNumeral hc)
  have hnumeral : ((byteNumeral v).isEmpty || (byteNumeral v).any (fun c => 10 ≤ digitValue c)) = false := by
    rw [Bool.or_eq_false_iff, List.isEmpty_eq_false_iff, List.any_eq_false]
    exact ⟨(isWord_byteNumeral v).1, fun c hc => by simpa using (hdigit c hc).2⟩
  have hvalue : (byteNumeral v).foldl (fun n c => 10 * n + digitValue c) 0 = v.toNat := by
    rw [List.foldl_ext _ (fun n c => 10 * n + (c.toNat - '0'.toNat)) 0 fun n c hc => by rw [(hdigit c hc).1],
      byteNumeral_eq_toDigits]
    exact Nat.ofDigitChars_ten_toDigits
  rw [numeralValue, hnumeral, hvalue]
  rfl

theorem byteOfNat_toNat (v : Byte) : byteOfNat v.toNat = some v := by
  rw [byteOfNat, if_pos v.isLt, BitVec.ofNat_toNat, BitVec.setWidth_eq]

theorem readRegister_registerText (b : Byte) : readRegister (registerText b) = some b := by
  rw [registerText, readRegister, numeralValue_byteNumeral, Option.bind_some, byteOfNat_toNat]

/-- With no labels a decimal numeral is read as such: it does not begin with `0x`. -/
theorem readImmediate_byteNumeral (v : Byte) : readImmediate [] (byteNumeral v) = some v := by
  have hdecimal : (numeralValue 10 (byteNumeral v)).bind byteOfNat = some v := by
    rw [numeralValue_byteNumeral, Option.bind_some, byteOfNat_toNat]
  unfold readImmediate
  rw [List.find?_nil]
  dsimp only
  split
  next ds hx =>
    have hdigit : 'x'.isDigit = true := isDigit_of_mem_byteNumeral (v := v) (by rw [hx]; simp)
    cases hdigit
  next => exact hdecimal

/-- An instruction as the reader hands it to the encoder: no label, its opcode and its operands' texts. -/
def asmLine (i : Instr) : AssemblyLine := ⟨none, i.opcode, operandTexts i⟩

theorem readLine_instrText (i : Instr) : readLine (instrText i) = some (asmLine i) := by
  rw [instrText_eq]
  exact readLine_text i.opcode (isWord_of_mem_operandTexts i)

/-- The line of an instruction is read as that instruction. -/
theorem lineInstr_asmLine (i : Instr) : lineInstr [] (asmLine i) = some i := by
  cases i with
  | hlt | ret => rfl
  | push a | pop a | prn a | call a | jmp a | jeq a | jne a =>
    exact congrArg (Option.map _) (readRegister_registerText a)
  | ldi a v =>
    refine (congrArg (Option.bind · _) (readRegister_registerText a)).trans ?_
    exact congrArg (Option.map _) (readImmediate_byteNumeral v)
  | add a b | sub a b | mul a b | div a b | cmp a b | or a b | xor a b | shl a b | shr a b =>
    refine (congrArg (Option.bind · _) (readRegister_registerText a)).trans ?_
    exact congrArg (Option.map _) (readRegister_registerText b)

/-! ## Reading a program -/

theorem allSome_map {α β γ : Type} {f : β → Option γ} {g : α → β} {k : α → γ} (h : ∀ a, f (g a) = some (k a))
    (l : List α) : allSome f (l.map g) = some (l.map k) := by
  induction l with
  | nil => rfl
  | cons a l ih => rw [List.map_cons, allSome, h, ih]; rfl

theorem labelAddresses_asmLine (program : List Instr) (addr : Nat) :
    labelAddresses addr (program.map asmLine) = [] := by
  induction program generalizing addr with
  | nil => rfl
  | cons i program ih => exact ih _

/-- The pieces of a program's text are its instructions' texts, and an empty one after the last line end. -/
theorem piecesAt_program (program : List Instr) :
    piecesAt (fun c => c == ';' || c == '\n') (program.flatMap fun i => instrText i ++ ['\n']) =
      program.map instrText ++ [[]] := by
  induction program with
  | nil => rfl
  | cons i program ih =>
    have hsep : ∀ c ∈ instrText i, (c == ';' || c == '\n') = false := by
      rw [instrText_eq]
      intro c hc
      have hws := isWord_of_mem_operandTexts i
      have hsemicolon := no_separator_in_text _ hws (d := ';') rfl (by decide) (by decide) c hc
      have hnewline := no_separator_in_text _ hws (d := '\n') rfl (by decide) (by decide) c hc
      rw [beq_false_of_ne hsemicolon, beq_false_of_ne hnewline, Bool.or_self]
    rw [List.flatMap_cons, List.append_assoc, List.singleton_append, piecesAt_append_separator hsep rfl, ih]
    rfl

/-- No instruction's text is blank; the piece after the last line end is. -/
theorem filter_pieces (program : List Instr) :
    (program.map instrText ++ [[]]).filter (fun p => !(trimBlanks p).isEmpty) = program.map instrText := by
  have htext : ∀ p ∈ program.map instrText, (!(trimBlanks p).isEmpty) = true := by
    intro p hp
    obtain ⟨i, -, rfl⟩ := List.mem_map.mp hp
    have hne : mnemonic i.opcode ++ operandsText (operandTexts i) ≠ [] :=
      List.append_ne_nil_of_left_ne_nil (isWord_mnemonic _).1 _
    rw [instrText_eq, trimBlanks_text _ (isWord_of_mem_operandTexts i), List.isEmpty_eq_false_iff.mpr hne]
    rfl
  rw [List.filter_append, List.filter_eq_self.mpr htext]
  exact List.append_nil _

/-- Settles O52: the pieces are the instructions' texts, each is read as its instruction, and there are no labels. -/
theorem assemblyTextAssemblesToEncoding : Obligations.AssemblyTextAssemblesToEncoding := by
  intro program
  have hlines : allSome readLine (program.map instrText) = some (program.map asmLine) :=
    allSome_map readLine_instrText program
  have hinstrs : allSome (lineInstr []) (program.map asmLine) = some (program.map id) :=
    allSome_map lineInstr_asmLine program
  rw [assemble, piecesAt_program, filter_pieces, hlines, Option.bind_some, labelAddresses_asmLine, hinstrs, List.map_id]
  rfl

end Sys2Proof.Machine
end
